-- ==== Sys2Proof/Word.lean ====
section
/-! DEFINITION. The word types of the block: a byte and the 16- and 32-bit values (00_scope.md R10, R11). -/

namespace Sys2Proof

/-- A byte, bits `[7:0]` (R10). -/
abbrev Byte := BitVec 8

/-- A 16-bit CRC value (R145). -/
abbrev Word16 := BitVec 16

/-- A register or command word (R9, `REG_WIDTH`). -/
abbrev Word32 := BitVec 32

end Sys2Proof
end

