-- ==== Sys2Proof/Config.lean ====
section
/-! DEFINITION. The parameters of 00_scope.md R9: the fixed protocol constants and sizes, and the OPEN ones. -/

namespace Sys2Proof

/-- The two byte arrays of the block (10_state.md R35, R36). -/
inductive Buffer where
  | frame
  | out
  deriving DecidableEq, Repr

namespace Config

/-- `START_MARKER` (R9). -/
abbrev startMarker : Byte := 0x9B#8

/-- `END_MARKER` (R9). -/
abbrev endMarker : Byte := 0x9D#8

/-- `MSG_HEIGHT` (R9, R115). -/
abbrev msgHeight : Byte := 0x12#8

/-- `CRC_INIT` (R9). -/
abbrev crcInit : Word16 := 0xFFFF#16

/-- `CRC_POLY`, the reflected polynomial (R9). -/
abbrev crcPoly : Word16 := 0xA001#16

/-- `FRAME_BUF_BYTES` (R9). -/
abbrev frameBufBytes : Nat := 256

/-- `OUT_BUF_BYTES` (R9). -/
abbrev outBufBytes : Nat := 512

/-- `MIN_FRAME_BYTES`, the smallest well-formed frame (R9, R114, conflict C7). -/
abbrev minFrameBytes : Nat := 6

/-- The smallest length whose bytes the validator reads (R161, conflict C7). -/
abbrev minReadableBytes : Nat := 4

/-- `BUF_RESET_CONTENT`: the byte that a location of a buffer holds after the `k`-th reset, until it
is written: a draw "under no law" (R9, R270). FREE VALUE (log entry 5): it has no body, so nothing
can be proved of it. -/
opaque bufResetContent : Buffer → Nat → Nat → Byte

/-- The OPEN parameters `ADDR_WIDTH` (at least 10) and `BASE` (aligned to 1024 bytes), with the two
bounds R60 puts on them. An argument wherever it is used (log entry 11). -/
structure Bus where
  addrWidth : Nat
  base : BitVec addrWidth
  width_ok : 10 ≤ addrWidth
  base_aligned : base.toNat % 1024 = 0

end Config

end Sys2Proof
end

