-- ==== Sys2Proof/Syntax.lean ====
section
/-! DEFINITION. The seven commands of the opcode map (30_encoding.md R91), one constructor each. -/

namespace Sys2Proof

/-- A command (30_encoding.md R91). The two byte operands are `IMM8`, an unsigned byte (R93). -/
inductive Instr where
  /-- `CRC_INIT` (40_crc.md R133). -/
  | crcInit
  /-- `CRC_BYTE b` (40_crc.md R136). -/
  | crcByte (imm8 : Byte)
  /-- `CRC_BUF` (40_crc.md R140). -/
  | crcBuf
  /-- `VALIDATE` (41_validator.md R160). -/
  | validate
  /-- `SEG_DECODE b` (42_decoder.md R195). -/
  | segDecode (imm8 : Byte)
  /-- `DECODE_PAYLOAD` (42_decoder.md R200). -/
  | decodePayload
  /-- `PARSE` (42_decoder.md R205). -/
  | parse
  deriving DecidableEq, Repr

end Sys2Proof
end

