-- ==== Sys2Proof/WellFormed.lean ====
section
/-! DEFINITION. The command word as its three fields (30_encoding.md R90) and the three checks that make
such a word legal (R92). -/

namespace Sys2Proof

/-- The fields of the one format, `CMDW` (R90). -/
structure CmdFields where
  opc : Byte
  imm8 : Byte
  rsv : Word16
  deriving DecidableEq, Repr

/-- The seven assigned operation codes (R91). -/
def assignedOpcodes : List Byte := [0x01#8, 0x02#8, 0x03#8, 0x10#8, 0x20#8, 0x21#8, 0x30#8]

/-- The operation codes that use `IMM8` (R91). -/
def immOpcodes : List Byte := [0x02#8, 0x20#8]

/-- `OPC` is one of the assigned codes (R92). -/
def CmdFields.opcAssigned (f : CmdFields) : Bool := assignedOpcodes.contains f.opc

/-- `IMM8` is 0 unless the operation uses it (R90, R92). -/
def CmdFields.immAllowed (f : CmdFields) : Bool := immOpcodes.contains f.opc || f.imm8 == 0#8

/-- `RSV` is 0 (R90, R92). -/
def CmdFields.rsvZero (f : CmdFields) : Bool := f.rsv == 0#16

/-- A legal command word (R92 negated). -/
def CmdFields.wf (f : CmdFields) : Bool := f.opcAssigned && f.immAllowed && f.rsvZero

/-- The fields of a command's word (R91). -/
def Instr.fields : Instr → CmdFields
  | .crcInit => ⟨0x01#8, 0#8, 0#16⟩
  | .crcByte b => ⟨0x02#8, b, 0#16⟩
  | .crcBuf => ⟨0x03#8, 0#8, 0#16⟩
  | .validate => ⟨0x10#8, 0#8, 0#16⟩
  | .segDecode b => ⟨0x20#8, b, 0#16⟩
  | .decodePayload => ⟨0x21#8, 0#8, 0#16⟩
  | .parse => ⟨0x30#8, 0#8, 0#16⟩

/-- A command is well formed when its word's fields are. Every term of `Instr` is: its only operand is
a byte that every value is allowed for (R93). -/
def Instr.wf (i : Instr) : Bool := i.fields.wf

end Sys2Proof
end

