-- ==== Sys2Proof/Decode.lean ====
section
/-! DEFINITION. The opcode map as match and mask (30_encoding.md R91), the decoder (total, rejecting by
name, R92), and the encoder. -/

namespace Sys2Proof

/-- Why a word is illegal (R92). The names are the model's own (log entry 16): the block reports one
code, `ILLEGAL_CMD`, for all of them. -/
inductive IllegalWord where
  /-- `OPC` is not assigned. -/
  | unassignedOpcode
  /-- `OPC` is assigned and `RSV` is not 0. -/
  | reservedNotZero
  /-- `OPC` is assigned and does not use `IMM8`, `RSV` is 0, and `IMM8` is not 0. -/
  | unusedImmNotZero
  /-- More bits than a command word has (R90: every command is exactly 32 bits). -/
  | notOneWord
  deriving DecidableEq, Repr

/-- One row of the opcode map (R91). -/
structure OpcodeRow where
  matchBits : Word32
  mask : Word32
  command : Byte → Instr

/-- `OPC`, bits 7:0 of a command word (R90). -/
def opcField (w : Word32) : Byte := w.extractLsb' 0 8

/-- `IMM8`, bits 15:8 of a command word (R90, R93). -/
def immField (w : Word32) : Byte := w.extractLsb' 8 8

/-- `RSV`, bits 31:16 of a command word (R90). -/
def rsvField (w : Word32) : Word16 := w.extractLsb' 16 16

/-- The opcode map (R91), in the table's order. -/
def opcodeMap : List OpcodeRow :=
  [ ⟨0x00000001#32, 0xFFFFFFFF#32, fun _ => .crcInit⟩,
    ⟨0x00000002#32, 0xFFFF00FF#32, fun b => .crcByte b⟩,
    ⟨0x00000003#32, 0xFFFFFFFF#32, fun _ => .crcBuf⟩,
    ⟨0x00000010#32, 0xFFFFFFFF#32, fun _ => .validate⟩,
    ⟨0x00000020#32, 0xFFFF00FF#32, fun b => .segDecode b⟩,
    ⟨0x00000021#32, 0xFFFFFFFF#32, fun _ => .decodePayload⟩,
    ⟨0x00000030#32, 0xFFFFFFFF#32, fun _ => .parse⟩ ]

/-- "A command word selects a command when `(word AND mask) == match`" (R91). -/
def OpcodeRow.selects (r : OpcodeRow) (w : Word32) : Bool := (w &&& r.mask) == r.matchBits

/-- The name of the reason a word that no row selects is illegal (R92). -/
def whyIllegal (w : Word32) : IllegalWord :=
  if assignedOpcodes.contains (opcField w) then
    if rsvField w == 0#16 then .unusedImmNotZero else .reservedNotZero
  else .unassignedOpcode

/-- The decoder: the command of the row that selects the word, or the reason there is none (R91, R92). -/
def decode (w : Word32) : Except IllegalWord Instr :=
  match opcodeMap.find? (·.selects w) with
  | some r => .ok (r.command (immField w))
  | none => .error (whyIllegal w)

/-- The encoder: the row's match bits with `IMM8` in its place (R91, R121). -/
def encode : Instr → Word32
  | .crcInit => 0x00000001#32
  | .crcByte b => 0x00000002#32 ||| (b.setWidth 32 <<< 8)
  | .crcBuf => 0x00000003#32
  | .validate => 0x00000010#32
  | .segDecode b => 0x00000020#32 ||| (b.setWidth 32 <<< 8)
  | .decodePayload => 0x00000021#32
  | .parse => 0x00000030#32

/-- The command word whose low `nbits` bits are those of `w`, as spec/opcode_table.json numbers them.
A command word is one 32-bit write, so its bits have no layout in memory (R70, R90; log entry 17). -/
def tableWord (nbits w : Nat) : Word32 := BitVec.ofNat 32 (w % 2 ^ nbits)

/-- The decoder on any number of bits: more than one word is no command (R90). -/
def decodeBits (nbits w : Nat) : Except IllegalWord Instr :=
  if nbits ≤ 32 then decode (tableWord nbits w) else .error .notOneWord

/-- The command the decoder reads from a row of spec/opcode_table.json (none where it refuses). -/
def decodeTableWord (nbits w : Nat) : Option Instr := (decodeBits nbits w).toOption

end Sys2Proof
end

