-- ==== Sys2Proof/Machine/State.lean ====
section
/-! DEFINITION. The machine's state (10_state.md R20), the host's side of the bus, the reasons to stop, and
the state after reset (70_reset_and_hazards.md R270). -/

namespace Sys2Proof.Machine

/-- `STATUS.ERR`'s values (60_exceptions.md R240). The codes `0x3`..`0xF` are never produced, so they have
no constructor. -/
inductive ErrCode where
  | none
  | illegalCmd
  | range
  deriving DecidableEq, Repr

/-- The result fields of `STATUS`, bits 2 to 15 (10_state.md R23, R24). A field a command's rule does not
name is 0, which is each field's default. -/
structure Results where
  result : Bool := false
  startOk : Bool := false
  endOk : Bool := false
  lenOk : Bool := false
  crcOk : Bool := false
  height : Bool := false
  unknownType : Bool := false
  emptyPayload : Bool := false
  unrecSeen : Bool := false
  err : ErrCode := .none
  deriving DecidableEq, Repr

/-- `STATUS` (R23). -/
structure Status where
  busy : Bool := false
  done : Bool := false
  results : Results := {}
  deriving DecidableEq, Repr

/-- `SEG_OUT` (R33). -/
structure SegOut where
  char : Byte := 0#8
  dp : Bool := false
  unrec : Bool := false
  deriving DecidableEq, Repr

/-- The bytes of one buffer that were written since the last reset: (index, byte) pairs with indices
strictly rising. An index that is not listed holds the draw of that reset (R270; log entry 5). -/
abbrev Memory := List Host.Cell

/-- The registers of the host window (20_memory.md R61). -/
inductive Reg where
  | cmd
  | status
  | frameLen
  | arg
  | crc
  | rxCrc
  | calcCrc
  | msgType
  | payLen
  | segOut
  | outLen
  deriving DecidableEq, Repr

/-- The width of a host access (20_memory.md R62, R63). -/
inductive Width where
  | w8
  | w16
  | w32
  deriving DecidableEq, Repr

/-- A host access at an offset of the window (20_memory.md R60, R66). -/
inductive Access where
  | read (width : Width) (off : BitVec 10)
  | write8 (off : BitVec 10) (v : Byte)
  | write16 (off : BitVec 10) (v : Word16)
  | write32 (off : BitVec 10) (v : Word32)
  deriving DecidableEq, Repr

/-- What an offset stands for at a width that may access it (R61 to R63). -/
inductive Location where
  | reg (r : Reg)
  | frame (i : Nat)
  | out (j : Nat)
  deriving DecidableEq, Repr

/-- What the host gets back from an access (20_memory.md R65, R66, R79). -/
inductive Reply where
  /-- An error response and no data (R65). -/
  | busError
  /-- The normal response to a write. -/
  | ok
  /-- The data of an 8-bit read. -/
  | data8 (v : Byte)
  /-- The data of a 32-bit read. -/
  | data32 (v : Word32)
  deriving DecidableEq, Repr

/-- One line of a host program (30_encoding.md R120). -/
inductive HostOp where
  /-- A bus access (`wr32`, `rd32`, `wr8`, `rd8`). -/
  | access (a : Access)
  /-- `wait`: repeat a read of `STATUS` until `DONE` = 1. -/
  | wait
  deriving DecidableEq, Repr

/-- Who takes a step (00_scope.md R7, R8; 70_reset_and_hazards.md R270). -/
inductive Turn where
  /-- The host performs its next operation, unless it is held. -/
  | host
  /-- The core sequencer completes the command in flight. -/
  | core
  /-- The platform asserts reset; the host restarts with the operations `next` (R273). -/
  | reset (next : List HostOp)
  deriving DecidableEq, Repr

/-- The machine's state. The first twelve fields and `inflight` are the block's own (10_state.md R20); the
last four are the model's: the host agent, the schedule, and the number of the draw (log entries 5, 6). -/
structure State where
  /-- `STATUS` (R23). -/
  status : Status
  /-- `FRAME_LEN.N` (R26). -/
  frameLen : BitVec 9
  /-- `ARG.START` (R27). -/
  argStart : BitVec 9
  /-- `ARG.COUNT` (R27). -/
  argCount : BitVec 9
  /-- `CRC.VALUE` (R28). -/
  crc : Word16
  /-- `RX_CRC.VALUE` (R29). -/
  rxCrc : Word16
  /-- `CALC_CRC.VALUE` (R30). -/
  calcCrc : Word16
  /-- `MSG_TYPE.TYPE` (R31). -/
  msgType : Byte
  /-- `PAY_LEN.P` (R32). -/
  payLen : Byte
  /-- `SEG_OUT` (R33). -/
  segOut : SegOut
  /-- `OUT_LEN.LEN` (R34). -/
  outLen : BitVec 10
  /-- `FRAME_BUF` (R35): the bytes written since the last reset. -/
  frameBuf : Memory
  /-- `OUT_BUF` (R36): the bytes written since the last reset. -/
  outBuf : Memory
  /-- The in-flight command's word, from acceptance to completion (R37, R98; log entry 4). -/
  inflight : Option Word32
  /-- Model: how many resets followed power-on (log entry 5). -/
  resetCount : Nat
  /-- Model: what the host will do, in its program order (20_memory.md R75). -/
  pending : List HostOp
  /-- Model: who takes the next steps (log entries 2, 3). -/
  turns : List Turn
  /-- Model: the replies the host got, newest first (R79). -/
  replies : List Reply
  deriving DecidableEq, Repr

/-- There is no fault: the block has no trap and stops for nothing (60_exceptions.md R246; log entry 18). -/
inductive Fault where
  deriving DecidableEq, Repr

/-- Why a step has no meaning. No meaning of this model refuses. -/
inductive Refusal where
  /-- Raised by an arm of `exec` for an instruction that has no meaning yet: safe (nothing follows from
  it). No arm of this model raises it. -/
  | notModelled (mnemonic : String)
  deriving DecidableEq, Repr

/-- What one step of this machine answers. -/
abbrev StepOutcome := Host.Outcome State Fault Refusal

/-- The state after power-on reset (70_reset_and_hazards.md R270, R274): the block idle, `CRC` = `0xFFFF`,
every other register 0, no byte of a buffer written. Nothing is pending on the host's side. -/
def State.reset : State where
  status := {}
  frameLen := 0#9
  argStart := 0#9
  argCount := 0#9
  crc := 0xFFFF#16
  rxCrc := 0#16
  calcCrc := 0#16
  msgType := 0#8
  payLen := 0#8
  segOut := {}
  outLen := 0#10
  frameBuf := []
  outBuf := []
  inflight := none
  resetCount := 0
  pending := []
  turns := []
  replies := []

end Sys2Proof.Machine
end

