-- ==== Sys2Proof/Machine/Ops.lean ====
section
/-! DEFINITION. The named operations over the buffers and the registers: reading and writing bytes
(00_scope.md R12), acceptance and completion of a command (30_encoding.md R98, R99), and raising a command
error (60_exceptions.md R241), which is this hardware's only exception. There is no return from one (R247). -/

namespace Sys2Proof.Machine

/-- The byte written at an index since the last reset, if there is one. -/
def Memory.get? : Memory → Nat → Option Byte
  | [], _ => none
  | (a, b) :: m, i => if a = i then some b else Memory.get? m i

/-- Writes one byte, keeping the indices strictly rising. -/
def Memory.set : Memory → Nat → Byte → Memory
  | [], i, v => [(i, v)]
  | (a, b) :: m, i, v =>
    if i < a then (i, v) :: (a, b) :: m
    else if i = a then (i, v) :: m
    else (a, b) :: Memory.set m i v

/-- Writes bytes at consecutive indices from `k`. -/
def Memory.setList : Memory → Nat → List Byte → Memory
  | m, _, [] => m
  | m, k, b :: bs => Memory.setList (Memory.set m k b) (k + 1) bs

/-- Indices strictly rising, none below `lo`, all below `size`. -/
def Memory.wfFrom (size : Nat) : Nat → Memory → Bool
  | _, [] => true
  | lo, (a, _) :: m => decide (lo ≤ a) && decide (a < size) && Memory.wfFrom size (a + 1) m

/-- The canonical form of a buffer of `size` bytes: indices strictly rising and inside the buffer. No
entry can repeat what an unlisted index reads as, since that is a draw with no value (log entry 5). -/
def Memory.wf (size : Nat) (m : Memory) : Bool := Memory.wfFrom size 0 m

/-- What a buffer holds at an index: the byte written since the last reset, else that reset's draw
(R12 `MemRead`, R270). This is the one place that says what an unlisted index reads as. -/
def Memory.byteAt (buf : Buffer) (resetCount : Nat) (m : Memory) (i : Nat) : Byte :=
  (Memory.get? m i).getD (Config.bufResetContent buf resetCount i)

/-- `FB[i]` (R12). -/
def frameByte (s : State) (i : Nat) : Byte := Memory.byteAt .frame s.resetCount s.frameBuf i

/-- `OB[j]` as the host reads it (20_memory.md R66). -/
def outByte (s : State) (j : Nat) : Byte := Memory.byteAt .out s.resetCount s.outBuf j

/-- The bytes `FB[start], FB[start+1], ...`, `count` of them (R12, R192). -/
def frameBytes (s : State) : Nat → Nat → List Byte
  | _, 0 => []
  | start, count + 1 => frameByte s start :: frameBytes s (start + 1) count

/-- The host's write of one byte of `FRAME_BUF` (20_memory.md R66). -/
def setFrameByte (s : State) (i : Nat) (v : Byte) : State :=
  { s with frameBuf := Memory.set s.frameBuf i v }

/-- Leaves a reading: `OB[0 .. k-1]` and `OUT_LEN = k`, `k` the number of codes (42_decoder.md R193, R200). -/
def writeReading (s : State) (codes : List Byte) : State :=
  { s with outBuf := Memory.setList s.outBuf 0 codes, outLen := BitVec.ofNat 10 codes.length }

/-- Acceptance of the command word `w` (30_encoding.md R98, 10_state.md R24): recorded as the in-flight
command, `STATUS` becomes `BUSY` alone, nothing else changes. -/
def acceptCommand (w : Word32) (s : State) : State :=
  { s with inflight := some w, status := { busy := true, done := false, results := {} } }

/-- Completion (30_encoding.md R99, 10_state.md R24): `BUSY` = 0, `DONE` = 1, every result field written
(a field that is not named is 0), the in-flight command dropped. -/
def complete (s : State) (r : Results) : State :=
  { s with status := { busy := false, done := true, results := r }, inflight := none }

/-- `raise CmdError(code)` (60_exceptions.md R241): completes the command with `ERR` = `code`, every other
result field 0, and no other effect. -/
def raiseCmdError (code : ErrCode) (s : State) : StepOutcome :=
  .next (complete s { err := code })

/-- The platform's reset (70_reset_and_hazards.md R270 to R274): every register at its reset value, any
command in flight dropped, every buffer byte a new draw. A held access is discarded and the host restarts
with the operations `next` (R273). The schedule and the record of replies are not the block's. -/
def resetBlock (next : List HostOp) (s : State) : State :=
  { State.reset with
    resetCount := s.resetCount + 1, pending := next, turns := s.turns, replies := s.replies }

end Sys2Proof.Machine
end

