-- ==== Sys2Proof/Machine/Flags.lean ====
section
/-! DEFINITION. The registers as 32-bit words: the bit places of `STATUS` (10_state.md R23) and of the other
registers' fields (R26 to R34). Reserved bits are 0 (R22). -/

namespace Sys2Proof.Machine

/-- The code of `STATUS.ERR` (60_exceptions.md R240). -/
def errBits : ErrCode → BitVec 4
  | .none => 0x0#4
  | .illegalCmd => 0x1#4
  | .range => 0x2#4

/-- A flag as one bit. -/
def flag (b : Bool) : BitVec 1 := BitVec.ofBool b

/-- `STATUS` as a word, its fields from bit 31 down to bit 0 (R23). -/
def statusWord (st : Status) : Word32 :=
  0#16 ++ errBits st.results.err ++ 0#1 ++ flag st.results.unrecSeen ++ flag st.results.emptyPayload
    ++ flag st.results.unknownType ++ flag st.results.height ++ flag st.results.crcOk
    ++ flag st.results.lenOk ++ flag st.results.endOk ++ flag st.results.startOk
    ++ flag st.results.result ++ flag st.done ++ flag st.busy

/-- `ARG` as a word (R27). -/
def argWord (start count : BitVec 9) : Word32 := 0#7 ++ count ++ 0#7 ++ start

/-- `SEG_OUT` as a word (R33). -/
def segOutWord (o : SegOut) : Word32 := 0#22 ++ flag o.unrec ++ flag o.dp ++ o.char

/-- What a 32-bit read of a register returns (20_memory.md R66); a read of `CMD` returns 0 (R90). -/
def readReg (s : State) : Reg → Word32
  | .cmd => 0#32
  | .status => statusWord s.status
  | .frameLen => 0#23 ++ s.frameLen
  | .arg => argWord s.argStart s.argCount
  | .crc => 0#16 ++ s.crc
  | .rxCrc => 0#16 ++ s.rxCrc
  | .calcCrc => 0#16 ++ s.calcCrc
  | .msgType => 0#24 ++ s.msgType
  | .payLen => 0#24 ++ s.payLen
  | .segOut => segOutWord s.segOut
  | .outLen => 0#22 ++ s.outLen

/-- A 32-bit write to a register of a block that is not busy (20_memory.md R66): `CMD` accepts a command,
`FRAME_LEN` and `ARG` store their fields (R26, R27), a read-only register ignores it (R66, decision D32). -/
def writeReg (s : State) (v : Word32) : Reg → State
  | .cmd => acceptCommand v s
  | .frameLen => { s with frameLen := v.extractLsb' 0 9 }
  | .arg => { s with argStart := v.extractLsb' 0 9, argCount := v.extractLsb' 16 9 }
  | .status => s
  | .crc => s
  | .rxCrc => s
  | .calcCrc => s
  | .msgType => s
  | .payLen => s
  | .segOut => s
  | .outLen => s

end Sys2Proof.Machine
end

