-- ==== Sys2Proof/Machine/Bus.lean ====
section
/-! DEFINITION. The host bus (20_memory.md): address decode, the window's map, the access effects, the hold
rule, and the host's turn. -/

namespace Sys2Proof.Machine

/-- `off = addr - BASE` when it lies in `0x000..0x3FF`; any other address is not the block's (R60). -/
def windowOffset (bus : Config.Bus) (addr : BitVec bus.addrWidth) : Option (BitVec 10) :=
  if (addr - bus.base).toNat < 1024 then some (BitVec.ofNat 10 (addr - bus.base).toNat) else none

/-- The host puts an access to a bus address behind what it already issues. One that is not addressed to
the block does not reach it (R60). -/
def hostIssues (bus : Config.Bus) (addr : BitVec bus.addrWidth) (access : BitVec 10 → Access)
    (s : State) : State :=
  match windowOffset bus addr with
  | some off => { s with pending := s.pending ++ [.access (access off)] }
  | none => s

/-- The registers in the window's order, one every 4 bytes (R61). -/
def regMap : List Reg :=
  [.cmd, .status, .frameLen, .arg, .crc, .rxCrc, .calcCrc, .msgType, .payLen, .segOut, .outLen]

/-- The first offset past the registers (R61, R64). -/
abbrev regsEnd : Nat := 0x02C

/-- `FRAME_BUF[0]`'s offset (R61). -/
abbrev frameBase : Nat := 0x100

/-- `OUT_BUF[0]`'s offset (R61). -/
abbrev outBase : Nat := 0x200

/-- What an access of this width at this offset reaches; `none` is a bus error (R62, R63, R64). -/
def locate (width : Width) (off : BitVec 10) : Option Location :=
  let o := off.toNat
  if o < regsEnd then
    if width = .w32 ∧ o % 4 = 0 then (regMap[o / 4]?).map .reg else none
  else if o < frameBase then none
  else if width = .w8 then
    if o < outBase then some (.frame (o - frameBase)) else some (.out (o - outBase))
  else none

/-- What a read returns (R66): the register's word, or the buffer's byte. -/
def readLocation (s : State) : Location → Reply
  | .reg r => .data32 (readReg s r)
  | .frame i => .data8 (frameByte s i)
  | .out j => .data8 (outByte s j)

/-- Performs an access that is not held: the state after it and the reply (R65, R66). A bus error changes
nothing; a 16-bit access is always one; a write to `OUT_BUF` or to a read-only register is ignored. -/
def performAccess (s : State) : Access → State × Reply
  | .read width off =>
    match locate width off with
    | some l => (s, readLocation s l)
    | none => (s, .busError)
  | .write8 off v =>
    match locate .w8 off with
    | some (.frame i) => (setFrameByte s i v, .ok)
    | some (.out _) => (s, .ok)
    | some (.reg _) => (s, .busError)
    | none => (s, .busError)
  | .write16 _ _ => (s, .busError)
  | .write32 off v =>
    match locate .w32 off with
    | some (.reg r) => (writeReg s v r, .ok)
    | some (.frame _) => (s, .busError)
    | some (.out _) => (s, .busError)
    | none => (s, .busError)

/-- `STATUS`'s offset (R61). -/
def statusOffset : BitVec 10 := 0x004#10

/-- A 32-bit read of `STATUS`. -/
def readStatus : Access := .read .w32 statusOffset

/-- The hold rule (R68): while `BUSY` = 1 every access is held except a 32-bit read of `STATUS`. -/
def held (s : State) (a : Access) : Bool := s.status.busy && !decide (a = readStatus)

/-- The access the host has on the bus for its next operation: `wait` reads `STATUS` (30_encoding.md R120). -/
def accessOf : HostOp → Access
  | .access a => a
  | .wait => readStatus

/-- Whether the host goes on to its next operation after this one was answered: `wait` goes on when the
`STATUS` it read has `DONE` = 1 (R120). -/
def opFinished (s : State) : HostOp → Bool
  | .access _ => true
  | .wait => s.status.done

/-- The host's turn (R66, R68, R75): its next operation is answered, or waits with no effect while it is
held. A host with nothing to do does nothing (log entry 9). -/
def hostTurn (s : State) : State :=
  match s.pending with
  | [] => s
  | op :: rest =>
    if held s (accessOf op) then s
    else
      let answered := performAccess s (accessOf op)
      { answered.1 with
        pending := if opFinished s op then rest else op :: rest
        replies := answered.2 :: s.replies }

end Sys2Proof.Machine
end

