-- ==== Sys2Proof/Machine/Operands.lean ====
section
/-! DEFINITION. The operands of the commands (30_encoding.md R93, R94): the frame length, the byte range, and
the range check (60_exceptions.md R243). -/

namespace Sys2Proof.Machine

/-- `N = FRAME_LEN.N`, unsigned (R94). -/
def operandN (s : State) : Nat := s.frameLen.toNat

/-- `S = ARG.START`, unsigned (R94). -/
def operandS (s : State) : Nat := s.argStart.toNat

/-- `C = ARG.COUNT`, unsigned (R94). -/
def operandC (s : State) : Nat := s.argCount.toNat

/-- `S + C > 256`, the sum exact, with no 9-bit wrap (R243). -/
def rangeError (s : State) : Bool := decide (Config.frameBufBytes < operandS s + operandC s)

/-- The bytes `FB[S .. S+C-1]` of the range commands (R94, R192). -/
def rangeBytes (s : State) : List Byte := frameBytes s (operandS s) (operandC s)

/-- `zext_16(IMM8)`: the byte operand enters bits 7..0, never sign-extended (R93, R130). -/
def zext16 (b : Byte) : Word16 := b.setWidth 16

/-- `{hi, lo}`, `hi` in the more significant position (R10). -/
def concatBytes (hi lo : Byte) : Word16 := hi ++ lo

end Sys2Proof.Machine
end

