-- ==== Sys2Proof/Machine/Crc.lean ====
section
/-! DEFINITION. The CRC engine (40_crc.md): the algorithm (R130, R131) and CRC_INIT, CRC_BYTE, CRC_BUF. -/

namespace Sys2Proof.Machine

/-- One iteration of R130: the low bit is tested before the logical shift. -/
def crcShift (c : Word16) : Word16 :=
  if c.getLsbD 0 then (c >>> 1) ^^^ Config.crcPoly else c >>> 1

/-- `n` iterations of R130. -/
def crcShifts : Nat → Word16 → Word16
  | 0, c => c
  | n + 1, c => crcShifts n (crcShift c)

/-- `crc16_step(c, b)` (R130). -/
def crc16Step (c : Word16) (b : Byte) : Word16 := crcShifts 8 (c ^^^ zext16 b)

/-- The fold of `crc16_step` over a sequence, from any register value (R131, R136). -/
def crcFold (c : Word16) (bs : List Byte) : Word16 := bs.foldl crc16Step c

/-- `crc16(seq)` (R131): the fold from the initial value. -/
def crc16 (bs : List Byte) : Word16 := crcFold Config.crcInit bs

/-- CRC_INIT (R133). -/
def execCrcInit (s : State) : StepOutcome := .next (complete { s with crc := Config.crcInit } {})

/-- CRC_BYTE (R136): continues from the current `CRC.VALUE`. -/
def execCrcByte (imm8 : Byte) (s : State) : StepOutcome :=
  .next (complete { s with crc := crc16Step s.crc imm8 } {})

/-- CRC_BUF (R140): the range check first, then the CRC of the range from the initial value. -/
def execCrcBuf (s : State) : StepOutcome :=
  if rangeError s then raiseCmdError .range s
  else .next (complete { s with crc := crc16 (rangeBytes s) } {})

end Sys2Proof.Machine
end

