-- ==== Sys2Proof/Machine/Decoder.lean ====
section
/-! DEFINITION. The seven-segment decoder and the payload multiplexer (42_decoder.md R190 to R194), SEG_DECODE
and DECODE_PAYLOAD. -/

namespace Sys2Proof.Machine

/-- The ten entries of the look-up table (R190), with the codes of 00_scope.md R13. -/
def segTable : List (BitVec 7 × Byte) :=
  [ (0x3F#7, 0x30#8), (0x06#7, 0x31#8), (0x5B#7, 0x32#8), (0x4F#7, 0x33#8), (0x66#7, 0x34#8),
    (0x6D#7, 0x35#8), (0x7D#7, 0x36#8), (0x07#7, 0x37#8), (0x7F#7, 0x38#8), (0x6F#7, 0x39#8) ]

/-- The code of `'?'` (R13). -/
def questionMark : Byte := 0x3F#8

/-- The code of `'.'` (R13). -/
def decimalPoint : Byte := 0x2E#8

/-- `b[6:0]`, the seven-segment pattern (R72, R116). -/
def patternOf (b : Byte) : BitVec 7 := b.extractLsb' 0 7

/-- `b[7]`, the decimal-point flag (R72, R116). -/
def dpOf (b : Byte) : Bool := b.getLsbD 7

/-- A pattern is recognised when it is one of the ten entries (R190). -/
def recognised (p : BitVec 7) : Bool := (segTable.lookup p).isSome

/-- `seg_lut(p)` (R190). -/
def segLut (p : BitVec 7) : Byte := (segTable.lookup p).getD questionMark

/-- The codes of `seg_decode(b)` (R191): the digit first, then `'.'` when the flag is set. -/
def segChars (b : Byte) : List Byte :=
  if dpOf b then [segLut (patternOf b), decimalPoint] else [segLut (patternOf b)]

/-- `unrec` of `seg_decode(b)` (R191). -/
def segUnrec (b : Byte) : Bool := !recognised (patternOf b)

/-- What `decode_run` returns: the codes it writes to `OB[0 ..]`, in order, and whether any byte was
unrecognised (R193). -/
structure Reading where
  codes : List Byte
  unrecAny : Bool
  deriving DecidableEq, Repr

/-- The reading of a sequence of payload bytes, in payload order (R193). -/
def readingOf (bs : List Byte) : Reading := ⟨bs.flatMap segChars, bs.any segUnrec⟩

/-- `decode_run(base, count)` (R192, R193): the reading of `FB[base .. base+count-1]`. Its writes to
`OUT_BUF` are `writeReading`'s. -/
def decodeRun (s : State) (base count : Nat) : Reading := readingOf (frameBytes s base count)

/-- SEG_DECODE (R195). -/
def execSegDecode (imm8 : Byte) (s : State) : StepOutcome :=
  .next (complete
    { s with segOut := ⟨segLut (patternOf imm8), dpOf imm8, segUnrec imm8⟩ }
    { unrecSeen := segUnrec imm8 })

/-- DECODE_PAYLOAD (R200): the range check first; an empty range is reported and is no error (R194). -/
def execDecodePayload (s : State) : StepOutcome :=
  if rangeError s then raiseCmdError .range s
  else
    let run := decodeRun s (operandS s) (operandC s)
    .next (complete (writeReading s run.codes)
      { emptyPayload := decide (operandC s = 0), unrecSeen := run.unrecAny })

end Sys2Proof.Machine
end

