-- ==== Sys2Proof/Machine/Validator.lean ====
section
/-! DEFINITION. The frame validator with marker detection (41_validator.md): `validate_core` and VALIDATE. -/

namespace Sys2Proof.Machine

/-- What `validate_core` returns (41_validator.md, the whole function). -/
structure Verdict where
  startOk : Bool := false
  endOk : Bool := false
  lenOk : Bool := false
  crcOk : Bool := false
  rxCrc : Word16 := 0#16
  calcCrc : Word16 := 0#16
  valid : Bool := false
  deriving DecidableEq, Repr

/-- `4 <= N <= 256`, the lengths whose bytes are read (R161). -/
def lengthReadable (n : Nat) : Bool :=
  decide (Config.minReadableBytes ≤ n) && decide (n ≤ Config.frameBufBytes)

/-- `start_ok` (R162). -/
def startOkOf (s : State) : Bool := frameByte s 0 == Config.startMarker

/-- `end_ok` (R162). -/
def endOkOf (s : State) (n : Nat) : Bool := frameByte s (n - 1) == Config.endMarker

/-- `len_ok` (R163): at least an empty-payload frame, and the length field equal to `N - 2`. -/
def lenOkOf (s : State) (n : Nat) : Bool :=
  decide (Config.minFrameBytes ≤ n) && decide ((frameByte s 1).toNat = n - 2)

/-- `rx` (R164): big-endian at `FB[N-3]`, `FB[N-2]`. -/
def rxOf (s : State) (n : Nat) : Word16 := concatBytes (frameByte s (n - 3)) (frameByte s (n - 2))

/-- `calc` (R165): the CRC of the `N - 4` bytes `FB[1 .. N-4]`. -/
def calcOf (s : State) (n : Nat) : Word16 := crc16 (frameBytes s 1 (n - 4))

/-- `validate_core(N)` (R161 to R167). It writes no state (R168). -/
def validateCore (s : State) (n : Nat) : Verdict :=
  if lengthReadable n then
    { startOk := startOkOf s
      endOk := endOkOf s n
      lenOk := lenOkOf s n
      crcOk := rxOf s n == calcOf s n
      rxCrc := rxOf s n
      calcCrc := calcOf s n
      valid := startOkOf s && endOkOf s n && lenOkOf s n && (rxOf s n == calcOf s n) }
  else {}

/-- The four check bits of `STATUS` (R160, 42_decoder.md R205 `common`). -/
def checkResults (v : Verdict) : Results :=
  { startOk := v.startOk, endOk := v.endOk, lenOk := v.lenOk, crcOk := v.crcOk }

/-- `RX_CRC` and `CALC_CRC` are written whatever the verdict (R166). -/
def writeCrcs (s : State) (v : Verdict) : State := { s with rxCrc := v.rxCrc, calcCrc := v.calcCrc }

/-- VALIDATE (R160). -/
def execValidate (s : State) : StepOutcome :=
  let v := validateCore s (operandN s)
  .next (complete (writeCrcs s v) { checkResults v with result := v.valid })

end Sys2Proof.Machine
end

