-- ==== Sys2Proof/Machine/Parser.lean ====
section
/-! DEFINITION. PARSE (42_decoder.md R205 to R211): validate, dispatch on the message type, decode a Height
payload. -/

namespace Sys2Proof.Machine

/-- The message type of the frame, `FB[2]` (R205, R206). -/
def messageType (s : State) : Byte := frameByte s 2

/-- The payload length `P = FB[1] - 4`, 8 bits (R205, R111). -/
def payloadLength (s : State) : Byte := frameByte s 1 - 4#8

/-- The reading of the payload: `base = 3`, `count = P` (R192). -/
def payloadReading (s : State) : Reading := decodeRun s 3 (payloadLength s).toNat

/-- PARSE of a rejected frame (R205, R206, R208): nothing is decoded, `OUT_LEN` = 0. -/
def parseRejected (s : State) (v : Verdict) : State :=
  complete { writeCrcs s v with msgType := 0#8, payLen := 0#8, outLen := 0#10 } (checkResults v)

/-- PARSE of a valid Height frame (R205, R210). -/
def parseHeight (s : State) (v : Verdict) : State :=
  complete
    (writeReading { writeCrcs s v with msgType := messageType s, payLen := payloadLength s }
      (payloadReading s).codes)
    { checkResults v with
      result := true
      height := true
      emptyPayload := payloadLength s == 0#8
      unrecSeen := (payloadReading s).unrecAny }

/-- PARSE of a valid frame of another type (R205, R209; conflict C6): a failure, and nothing is decoded. -/
def parseUnknown (s : State) (v : Verdict) : State :=
  complete
    { writeCrcs s v with msgType := messageType s, payLen := payloadLength s, outLen := 0#10 }
    { checkResults v with unknownType := true }

/-- PARSE (R205). -/
def execParse (s : State) : StepOutcome :=
  let v := validateCore s (operandN s)
  if v.valid then
    if messageType s == Config.msgHeight then .next (parseHeight s v) else .next (parseUnknown s v)
  else .next (parseRejected s v)

end Sys2Proof.Machine
end

