-- ==== Sys2Proof/Machine/Dispatch.lean ====
section
/-! DEFINITION. One arm per command: its meaning (30_encoding.md R91, the table's rule column). -/

namespace Sys2Proof.Machine

def exec (i : Instr) (s : State) : Host.Outcome State Fault Refusal :=
  match i with
  | .crcInit => Sys2Proof.Machine.execCrcInit s
  | .crcByte imm8 => Sys2Proof.Machine.execCrcByte imm8 s
  | .crcBuf => Sys2Proof.Machine.execCrcBuf s
  | .validate => Sys2Proof.Machine.execValidate s
  | .segDecode imm8 => Sys2Proof.Machine.execSegDecode imm8 s
  | .decodePayload => Sys2Proof.Machine.execDecodePayload s
  | .parse => Sys2Proof.Machine.execParse s

end Sys2Proof.Machine
end

