-- ==== Sys2Proof/Machine/Sequencer.lean ====
section
/-! DEFINITION. The core sequencer (30_encoding.md R99), the choice of who moves (00_scope.md R7, R8), and how
a command word is put in flight from outside. -/

namespace Sys2Proof.Machine

/-- Performs the rule of a command word (R91, R99): a legal word runs its command, an illegal one raises
`ILLEGAL_CMD` and nothing else is checked (60_exceptions.md R242, R244). -/
def runCommand (w : Word32) (s : State) : StepOutcome :=
  match decode w with
  | .ok i => exec i s
  | .error _ => raiseCmdError .illegalCmd s

/-- The core's turn: the command in flight completes (R99). With none in flight nothing happens. -/
def coreTurn (s : State) : StepOutcome :=
  match s.inflight with
  | some w => runCommand w s
  | none => .next s

/-- One agent's step. -/
def takeTurn (t : Turn) (s : State) : StepOutcome :=
  match t with
  | .host => .next (hostTurn s)
  | .core => coreTurn s
  | .reset next => .next (resetBlock next s)

/-- Who moves when the schedule says nothing more (log entry 3): the core when a command is in flight,
else the host. So every accepted command completes (70_reset_and_hazards.md R283). -/
def defaultTurn (s : State) : Turn :=
  match s.inflight with
  | some _ => .core
  | none => .host

/-- One architectural event (00_scope.md R8): the schedule's next turn, or the default one. -/
def nextEvent (s : State) : StepOutcome :=
  match s.turns with
  | t :: rest => takeTurn t { s with turns := rest }
  | [] => takeTurn (defaultTurn s) s

/-- Puts a command word in flight as an acceptance does (R98), with the core next to move, so that the next
step performs it (log entry 8). -/
def withCommandInFlight (w : Word32) (s : State) : State :=
  { acceptCommand w s with turns := .core :: s.turns }

end Sys2Proof.Machine
end

