-- ==== Sys2Proof/Machine/Step.lean ====
section
/-! DEFINITION. One step of the machine: one architectural event (00_scope.md R8). -/

namespace Sys2Proof.Machine

/-- One step: a turn of the host, of the core sequencer, or of the platform's reset. -/
def step (s : State) : Host.Outcome State Fault Refusal := nextEvent s

/-- The state whose next step performs the command word of an opcode-table row. The block fetches no
instructions: a command word reaches it as the data of a `CMD` write (20_memory.md R77), and this stands for
the acceptance of that write (log entry 8). -/
def State.withFetchWord (s : State) (nbits w : Nat) : State := withCommandInFlight (tableWord nbits w) s

end Sys2Proof.Machine
end

