-- ==== Sys2Proof/Machine/HostProgram.lean ====
section
/-! DEFINITION. The host program syntax and its pseudo-instructions (30_encoding.md R120, R121), as the host
operations they expand to. -/

namespace Sys2Proof.Machine

/-- A register's offset in the window (20_memory.md R61). -/
def regOffset : Reg → BitVec 10
  | .cmd => 0x000#10
  | .status => 0x004#10
  | .frameLen => 0x008#10
  | .arg => 0x00C#10
  | .crc => 0x010#10
  | .rxCrc => 0x014#10
  | .calcCrc => 0x018#10
  | .msgType => 0x01C#10
  | .payLen => 0x020#10
  | .segOut => 0x024#10
  | .outLen => 0x028#10

/-- `wr32 REG, imm32` (R120). -/
def wr32 (r : Reg) (v : Word32) : HostOp := .access (.write32 (regOffset r) v)

/-- `rd32 REG` (R120). -/
def rd32 (r : Reg) : HostOp := .access (.read .w32 (regOffset r))

/-- `wr8 FB[i], imm8` (R120). -/
def wr8Frame (i : Nat) (v : Byte) : HostOp := .access (.write8 (BitVec.ofNat 10 (frameBase + i)) v)

/-- `rd8 FB[i]` (R120). -/
def rd8Frame (i : Nat) : HostOp := .access (.read .w8 (BitVec.ofNat 10 (frameBase + i)))

/-- `rd8 OB[j]` (R120). -/
def rd8Out (j : Nat) : HostOp := .access (.read .w8 (BitVec.ofNat 10 (outBase + j)))

/-- A command's pseudo-instruction: one write of its word to `CMD` (R121). -/
def issueCommand (i : Instr) : HostOp := wr32 .cmd (encode i)

/-- `set.range s, c` (R121). -/
def setRange (start count : Nat) : HostOp :=
  wr32 .arg (BitVec.ofNat 32 (count * 2 ^ 16) ||| BitVec.ofNat 32 start)

/-- The byte writes of `load.frame` from index `i` on (R121). -/
def writeFrameFrom : Nat → List Byte → List HostOp
  | _, [] => []
  | i, b :: bs => wr8Frame i b :: writeFrameFrom (i + 1) bs

/-- `load.frame b0, ..., bn-1` (R121). -/
def loadFrame (bs : List Byte) : List HostOp :=
  writeFrameFrom 0 bs ++ [wr32 .frameLen (BitVec.ofNat 32 bs.length)]

end Sys2Proof.Machine
end

