-- ==== Sys2Proof/Safety.lean ====
section
/-! DEFINITION. The terms that claims are stated in: the invariant of the block, what a command leaves
unchanged, and the ways a command ends. -/

namespace Sys2Proof.Machine

/-- What holds of the block at reset and after every step. -/
structure State.Inv (s : State) : Prop where
  /-- `FRAME_BUF`'s list is canonical (10_state.md R35). -/
  frameBuf_wf : Memory.wf Config.frameBufBytes s.frameBuf = true
  /-- `OUT_BUF`'s list is canonical (R36). -/
  outBuf_wf : Memory.wf Config.outBufBytes s.outBuf = true
  /-- `BUSY` = 1 exactly while a command is in flight (R23). -/
  busy_eq_inflight : s.status.busy = s.inflight.isSome
  /-- While `BUSY` = 1, `DONE` = 0 (R24). -/
  busy_not_done : s.status.busy = true → s.status.done = false
  /-- Until a command has completed every result field is 0 (R23, R24). -/
  results_need_done : s.status.done = false → s.status.results = {}
  /-- An error code stands alone (60_exceptions.md R241). -/
  err_alone : s.status.results.err ≠ .none → s.status.results = { err := s.status.results.err }
  /-- `RESULT` = 1 only with all four checks passed and no unknown type (41_validator.md R167, R209). -/
  result_checked : s.status.results.result = true →
    s.status.results.startOk = true ∧ s.status.results.endOk = true ∧ s.status.results.lenOk = true
      ∧ s.status.results.crcOk = true ∧ s.status.results.unknownType = false
  /-- `HEIGHT` = 1 only with `RESULT` = 1 (42_decoder.md R205). -/
  height_result : s.status.results.height = true → s.status.results.result = true
  /-- `UNKNOWN_TYPE` = 1 only with all four checks passed, `RESULT` = 0 and `HEIGHT` = 0 (R205, R209). -/
  unknown_checked : s.status.results.unknownType = true →
    s.status.results.startOk = true ∧ s.status.results.endOk = true ∧ s.status.results.lenOk = true
      ∧ s.status.results.crcOk = true ∧ s.status.results.result = false
      ∧ s.status.results.height = false
  /-- `OUT_LEN` counts at most the whole buffer (10_state.md R34). -/
  outLen_le : s.outLen.toNat ≤ Config.outBufBytes
  /-- `PAY_LEN` is at most the largest frame's payload (30_encoding.md R114). -/
  payLen_le : s.payLen.toNat ≤ 250
  /-- `SEG_OUT` is 0 or a decode result: a digit's code, or `'?'` with `UNREC` = 1 (10_state.md R33). -/
  segOut_legal : s.segOut = {}
    ∨ (0x30 ≤ s.segOut.char.toNat ∧ s.segOut.char.toNat ≤ 0x39 ∧ s.segOut.unrec = false)
    ∨ (s.segOut.char = questionMark ∧ s.segOut.unrec = true)

/-- The host's side is untouched: a command answers no access and takes no turn. -/
def KeepsHost (s t : State) : Prop :=
  t.pending = s.pending ∧ t.turns = s.turns ∧ t.replies = s.replies ∧ t.resetCount = s.resetCount

/-- Every register but those listed reads as before. -/
def KeepsRegsExcept (written : List Reg) (s t : State) : Prop :=
  ∀ r, r ∉ written → readReg t r = readReg s r

/-- Every byte of `FRAME_BUF` reads as before. -/
def KeepsFrameBuf (s t : State) : Prop := ∀ i, frameByte t i = frameByte s i

/-- Every byte of `OUT_BUF` at index `k` or above reads as before; with `k = 0`, every byte. -/
def KeepsOutBufFrom (k : Nat) (s t : State) : Prop := ∀ j, k ≤ j → outByte t j = outByte s j

/-- `OUT_BUF` begins with these codes. -/
def OutBufHolds (codes : List Byte) (t : State) : Prop :=
  ∀ j, ∀ h : j < codes.length, outByte t j = codes[j]

/-- The frame of a command that writes the registers listed and `OUT_BUF` below index `k` only. -/
def Frame (written : List Reg) (k : Nat) (s t : State) : Prop :=
  t.inflight = none ∧ KeepsRegsExcept written s t ∧ KeepsFrameBuf s t ∧ KeepsOutBufFrom k s t
    ∧ KeepsHost s t

/-- A command that ended in an error (60_exceptions.md R241): `STATUS` is `stat`, and nothing else is
written. -/
def EndsInError (stat : Word32) (s t : State) : Prop :=
  readReg t .status = stat ∧ Frame [.status] 0 s t

/-- `STATUS` after `ILLEGAL_CMD` and after `RANGE` (95_test_vectors.md, conventions). -/
def illegalStatus : Word32 := 0x1002#32

/-- See `illegalStatus`. -/
def rangeStatus : Word32 := 0x2002#32

/-- A word whose operation code is `opc` and whose `RSV` or unused `IMM8` is not 0 runs as an illegal one
(30_encoding.md R92). -/
def IllegalFormsOf (opc : Byte) (usesImm : Bool) : Prop :=
  ∀ (w : Word32) (s : State), opcField w = opc →
    (rsvField w ≠ 0#16 ∨ (usesImm = false ∧ immField w ≠ 0#8)) →
    ∃ t, runCommand w s = .next t ∧ EndsInError illegalStatus s t

/-- Runs commands one after another, as completions in acceptance order (30_encoding.md R100). -/
def execAll : List Instr → State → StepOutcome
  | [], s => .next s
  | i :: is, s =>
    match exec i s with
    | .next t => execAll is t
    | .fault f => .fault f
    | .refused r => .refused r

/-- `FRAME_BUF` begins with these bytes. -/
def FrameHolds (bs : List Byte) (s : State) : Prop :=
  ∀ i, ∀ h : i < bs.length, frameByte s i = bs[i]

/-- The frame of a message: markers, length field `P + 4`, type, payload, and the big-endian CRC over the
length field, the type and the payload (30_encoding.md R110 to R113). -/
def buildFrame (type : Byte) (payload : List Byte) : List Byte :=
  let covered := BitVec.ofNat 8 (payload.length + 4) :: type :: payload
  [Config.startMarker] ++ covered
    ++ [(crc16 covered).extractLsb' 8 8, (crc16 covered).extractLsb' 0 8, Config.endMarker]

/-- `FRAME_BUF` and `FRAME_LEN` hold the frame of a message, of at most 250 payload bytes (R114). -/
def HoldsMessage (type : Byte) (payload : List Byte) (s : State) : Prop :=
  payload.length ≤ 250 ∧ operandN s = payload.length + 6 ∧ FrameHolds (buildFrame type payload) s

/-- `FRAME_BUF` with one bit of one byte flipped. -/
def flipFrameBit (k b : Nat) (s : State) : State :=
  setFrameByte s k (frameByte s k ^^^ (1#8 <<< b))

/-- A flag at a bit of a register's word (10_state.md R23, R33). -/
def bitAt (b : Bool) (k : Nat) : Word32 := (BitVec.ofBool b).setWidth 32 <<< k

/-- The four check bits of a verdict in `STATUS` (10_state.md R23). -/
def checkBits (v : Verdict) : Word32 :=
  bitAt v.startOk 3 ||| bitAt v.endOk 4 ||| bitAt v.lenOk 5 ||| bitAt v.crcOk 6

/-- The patterns of the digits 0 to 9, in that order (42_decoder.md R190). -/
def digitPatterns : List (BitVec 7) :=
  [0x3F#7, 0x06#7, 0x5B#7, 0x4F#7, 0x66#7, 0x6D#7, 0x7D#7, 0x07#7, 0x7F#7, 0x6F#7]

/-- The character of a pattern: the digit whose pattern it is, else `'?'` (R190, 00_scope.md R13). -/
def decodedChar (p : BitVec 7) : Byte :=
  if p ∈ digitPatterns then BitVec.ofNat 8 (0x30 + digitPatterns.idxOf p) else 0x3F#8

/-- Whether a payload byte's pattern is no digit's (R190). -/
def unrecognised (b : Byte) : Bool := decide (b.setWidth 7 ∉ digitPatterns)

/-- The text of a payload byte: its character, then `'.'` when bit 7 is set (R191). -/
def decodedText (b : Byte) : List Byte :=
  decodedChar (b.setWidth 7) :: if b.getLsbD 7 then [0x2E#8] else []

/-- `FB[start], ..., FB[start+count-1]` by index (00_scope.md R12). -/
def bytesAt (s : State) (start count : Nat) : List Byte :=
  (List.range count).map fun k => frameByte s (start + k)

/-- The width of an access. -/
def accessWidth : Access → Width
  | .read width _ => width
  | .write8 _ _ => .w8
  | .write16 _ _ => .w16
  | .write32 _ _ => .w32

/-- The window offset of an access. -/
def accessOffset : Access → Nat
  | .read _ off => off.toNat
  | .write8 off _ => off.toNat
  | .write16 off _ => off.toNat
  | .write32 off _ => off.toNat

/-- Whether an access is a read. -/
def isRead : Access → Bool
  | .read _ _ => true
  | .write8 _ _ => false
  | .write16 _ _ => false
  | .write32 _ _ => false

/-- The used bits of every register; the others are reserved (10_state.md R23, R26 to R34). -/
def usedBits : Reg → Word32
  | .cmd => 0x00000000#32
  | .status => 0x0000F7FF#32
  | .frameLen => 0x000001FF#32
  | .arg => 0x01FF01FF#32
  | .crc => 0x0000FFFF#32
  | .rxCrc => 0x0000FFFF#32
  | .calcCrc => 0x0000FFFF#32
  | .msgType => 0x000000FF#32
  | .payLen => 0x000000FF#32
  | .segOut => 0x000003FF#32
  | .outLen => 0x000003FF#32

/-- A read-only register (20_memory.md R61). -/
def readOnly (r : Reg) : Prop := r ≠ .cmd ∧ r ≠ .frameLen ∧ r ≠ .arg

end Sys2Proof.Machine
end

