-- ==== Sys2Proof/Certificates/Slice0/Obligations.lean ====
section
/-! DEFINITION. The statements for the provers. -/

open Sys2Proof Sys2Proof.Machine

/-! ## Encoding -/

/-- Derived from 30_encoding.md R90, R91, R93: decoding an encoded command gives it back, for every value of
the byte operand, and the word's fields are the command's. -/
def Obligations.DecodeOfEncodeIsIdentity : Prop :=
  ∀ i : Instr, i.wf = true →
    decode (encode i) = .ok i ∧ opcField (encode i) = i.fields.opc
      ∧ immField (encode i) = i.fields.imm8 ∧ rsvField (encode i) = i.fields.rsv

/-- Derived from 30_encoding.md R91, R92: a command has one word, so decoding drops no bit. -/
def Obligations.EncodeOfDecodeIsIdentity : Prop :=
  ∀ (w : Word32) (i : Instr), decode w = .ok i → encode i = w

/-- 30_encoding.md R91: each row selects its command exactly on the words that match under its mask. -/
def Obligations.OpcodeMapSelectsByMatchAndMask : Prop :=
  ∀ w : Word32,
    (decode w = .ok .crcInit ↔ w &&& 0xFFFFFFFF#32 = 0x00000001#32)
    ∧ (decode w = .ok (.crcByte (immField w)) ↔ w &&& 0xFFFF00FF#32 = 0x00000002#32)
    ∧ (decode w = .ok .crcBuf ↔ w &&& 0xFFFFFFFF#32 = 0x00000003#32)
    ∧ (decode w = .ok .validate ↔ w &&& 0xFFFFFFFF#32 = 0x00000010#32)
    ∧ (decode w = .ok (.segDecode (immField w)) ↔ w &&& 0xFFFF00FF#32 = 0x00000020#32)
    ∧ (decode w = .ok .decodePayload ↔ w &&& 0xFFFFFFFF#32 = 0x00000021#32)
    ∧ (decode w = .ok .parse ↔ w &&& 0xFFFFFFFF#32 = 0x00000030#32)

/-- 30_encoding.md R92 and 60_exceptions.md R242: which words are illegal, that an illegal word is accepted
like any other, and that it completes with `ILLEGAL_CMD` and no other effect. -/
def Obligations.IllegalWordsRaiseIllegalCmd : Prop :=
  (∀ w : Word32, (∃ why, decode w = .error why) ↔
      (opcField w ∉ [0x01#8, 0x02#8, 0x03#8, 0x10#8, 0x20#8, 0x21#8, 0x30#8] ∨ rsvField w ≠ 0#16
        ∨ (immField w ≠ 0#8 ∧ opcField w ≠ 0x02#8 ∧ opcField w ≠ 0x20#8)))
  ∧ (∃ why, decode 0x00000000#32 = .error why)
  ∧ (∀ (w : Word32) (s : State), performAccess s (.write32 0x000#10 w) = (acceptCommand w s, .ok))
  ∧ (∀ (w : Word32) (s : State), (∃ why, decode w = .error why) →
      ∃ t, runCommand w s = .next t ∧ EndsInError illegalStatus s t)

/-- Words written out from the encodings of 30_encoding.md R91 (see 95_test_vectors.md) decode to the
commands they stand for. -/
def Obligations.SpecWordsDecode : Prop :=
  decode 0x00000001#32 = .ok .crcInit ∧ decode 0x00003102#32 = .ok (.crcByte 0x31#8)
    ∧ decode 0x00000003#32 = .ok .crcBuf ∧ decode 0x00000010#32 = .ok .validate
    ∧ decode 0x0000DB20#32 = .ok (.segDecode 0xDB#8) ∧ decode 0x00000021#32 = .ok .decodePayload
    ∧ decode 0x00000030#32 = .ok .parse

/-! ## CRC engine -/

/-- 40_crc.md R130, R131: one step is the XOR of the zero-extended byte and then eight shifts, each with the
polynomial exactly when the low bit was set; `crc16` folds the step from `0xFFFF`, in order. -/
def Obligations.CrcAlgorithm : Prop :=
  (∀ (c : Word16) (b : Byte), crc16Step c b =
      (fun c : Word16 => if c.getLsbD 0 then (c >>> 1) ^^^ 0xA001#16 else c >>> 1)^[8]
        (c ^^^ b.setWidth 16))
  ∧ crc16 [] = 0xFFFF#16
  ∧ (∀ (bs : List Byte) (b : Byte), crc16 (bs ++ [b]) = crc16Step (crc16 bs) b)

/-- Derived from 40_crc.md R130, R145 (every step is an XOR or a logical shift): the step is linear over XOR
in the register and the byte together. -/
def Obligations.CrcStepIsLinear : Prop :=
  ∀ (c d : Word16) (a b : Byte), crc16Step (c ^^^ d) (a ^^^ b) = crc16Step c a ^^^ crc16Step d b

/-- Derived from 40_crc.md R130, R146: a difference in the register or in the byte is never lost. -/
def Obligations.CrcStepKeepsDifferences : Prop :=
  (∀ (c d : Word16) (b : Byte), c ≠ d → crc16Step c b ≠ crc16Step d b)
  ∧ (∀ (c : Word16) (a b : Byte), a ≠ b → crc16Step c a ≠ crc16Step c b)

/-- 40_crc.md R134: CRC_INIT and then CRC_BYTE of every byte leave the CRC of the sequence, and so does
CRC_BUF over the same bytes. -/
def Obligations.StreamingAgreesWithBlock : Prop :=
  ∀ (bs : List Byte) (s : State),
    (∃ t, execAll (.crcInit :: bs.map .crcByte) s = .next t ∧ t.crc = crc16 bs)
    ∧ (s.argStart.toNat + s.argCount.toNat ≤ 256 → bytesAt s s.argStart.toNat s.argCount.toNat = bs →
        ∃ t, exec .crcBuf s = .next t ∧ t.crc = crc16 bs)

/-- 70_reset_and_hazards.md R280: without a CRC_INIT between them, two messages give the CRC of their
concatenation, with one the CRC of the second; CRC_BUF, VALIDATE and PARSE do not depend on `CRC`. -/
def Obligations.CrcContinuationHazard : Prop :=
  (∀ (xs ys : List Byte) (s t : State), execAll (.crcInit :: xs.map .crcByte) s = .next t →
      (∃ u, execAll (ys.map .crcByte) t = .next u ∧ u.crc = crc16 (xs ++ ys))
      ∧ (∃ u, execAll (.crcInit :: ys.map .crcByte) t = .next u ∧ u.crc = crc16 ys))
  ∧ (∀ (c : Word16) (s : State), s.argStart.toNat + s.argCount.toNat ≤ 256 →
      exec .crcBuf { s with crc := c } = exec .crcBuf s)
  ∧ (∀ (i : Instr) (c : Word16) (s t : State), i = .validate ∨ i = .parse → exec i s = .next t →
      exec i { s with crc := c } = .next { t with crc := c })

/-- 40_crc.md R133: CRC_INIT's encoding, its illegal forms, its effect and its frame. -/
def Obligations.CrcInitCommand : Prop :=
  decode 0x00000001#32 = .ok .crcInit ∧ IllegalFormsOf 0x01#8 false
  ∧ ∀ s : State, ∃ t, exec .crcInit s = .next t
      ∧ readReg t .crc = 0x0000FFFF#32 ∧ readReg t .status = 0x00000002#32
      ∧ Frame [.crc, .status] 0 s t

/-- 40_crc.md R136: CRC_BYTE's encoding, its illegal forms, its effect and its frame, with the rule's two
corner cases. -/
def Obligations.CrcByteCommand : Prop :=
  (∀ b : Byte, decode (0x00000002#32 ||| (b.setWidth 32 <<< 8)) = .ok (.crcByte b))
  ∧ IllegalFormsOf 0x02#8 true
  ∧ (∀ (s : State) (b : Byte), ∃ t, exec (.crcByte b) s = .next t
      ∧ readReg t .crc = (crc16Step s.crc b).setWidth 32 ∧ readReg t .status = 0x00000002#32
      ∧ Frame [.crc, .status] 0 s t)
  ∧ crc16Step 0xFFFF#16 0x00#8 = 0x40BF#16 ∧ crc16Step 0xFFFF#16 0xFF#8 = 0x00FF#16

/-- 40_crc.md R140: CRC_BUF's encoding, its illegal forms, its effect and its frame where the range fits,
and its `RANGE` error where it does not. -/
def Obligations.CrcBufCommand : Prop :=
  decode 0x00000003#32 = .ok .crcBuf ∧ IllegalFormsOf 0x03#8 false
  ∧ (∀ s : State, s.argStart.toNat + s.argCount.toNat ≤ 256 → ∃ t, exec .crcBuf s = .next t
      ∧ readReg t .crc = (crc16 (bytesAt s s.argStart.toNat s.argCount.toNat)).setWidth 32
      ∧ readReg t .status = 0x00000002#32 ∧ Frame [.crc, .status] 0 s t)
  ∧ (∀ s : State, 256 < s.argStart.toNat + s.argCount.toNat →
      ∃ t, exec .crcBuf s = .next t ∧ EndsInError rangeStatus s t)

/-! ## Frame validator -/

/-- 41_validator.md R161: outside `4..256` the outcome is all zero. -/
def Obligations.VerdictOutsideLengthDomain : Prop :=
  ∀ (s : State) (n : Nat), n < 4 ∨ 256 < n →
    (validateCore s n).startOk = false ∧ (validateCore s n).endOk = false
    ∧ (validateCore s n).lenOk = false ∧ (validateCore s n).crcOk = false
    ∧ (validateCore s n).rxCrc = 0x0000#16 ∧ (validateCore s n).calcCrc = 0x0000#16
    ∧ (validateCore s n).valid = false

/-- 41_validator.md R162, R163, R164, R165, R167: what each part of the verdict is inside `4..256`, that
`len_ok` puts the payload at `FB[3 .. N-4]`, and that `CRC` is not read. -/
def Obligations.VerdictInsideLengthDomain : Prop :=
  ∀ (s : State) (n : Nat), 4 ≤ n → n ≤ 256 →
    ((validateCore s n).startOk = true ↔ frameByte s 0 = 0x9B#8)
    ∧ ((validateCore s n).endOk = true ↔ frameByte s (n - 1) = 0x9D#8)
    ∧ ((validateCore s n).lenOk = true ↔ 6 ≤ n ∧ (frameByte s 1).toNat = n - 2)
    ∧ ((validateCore s n).lenOk = true →
        4 ≤ (frameByte s 1).toNat ∧ 3 + ((frameByte s 1).toNat - 4) = n - 3)
    ∧ (validateCore s n).rxCrc = frameByte s (n - 3) ++ frameByte s (n - 2)
    ∧ (validateCore s n).calcCrc = crc16 (bytesAt s 1 (n - 4))
    ∧ ((validateCore s n).crcOk = true ↔ (validateCore s n).rxCrc = (validateCore s n).calcCrc)
    ∧ ((validateCore s n).valid = true ↔
        (validateCore s n).startOk = true ∧ (validateCore s n).endOk = true
          ∧ (validateCore s n).lenOk = true ∧ (validateCore s n).crcOk = true)
    ∧ (∀ c : Word16, validateCore { s with crc := c } n = validateCore s n)

/-- 41_validator.md R160: VALIDATE's encoding, its illegal forms, its effect and its frame. -/
def Obligations.ValidateCommand : Prop :=
  decode 0x00000010#32 = .ok .validate ∧ IllegalFormsOf 0x10#8 false
  ∧ ∀ s : State, ∃ t, exec .validate s = .next t
      ∧ readReg t .rxCrc = (validateCore s s.frameLen.toNat).rxCrc.setWidth 32
      ∧ readReg t .calcCrc = (validateCore s s.frameLen.toNat).calcCrc.setWidth 32
      ∧ readReg t .status = 0x00000002#32 ||| bitAt (validateCore s s.frameLen.toNat).valid 2
          ||| checkBits (validateCore s s.frameLen.toNat)
      ∧ Frame [.rxCrc, .calcCrc, .status] 0 s t

/-- 41_validator.md R168: a wrong marker alone rejects, and the verdict depends on the length and the bytes
of the frame alone. -/
def Obligations.ValidationIsPureGate : Prop :=
  (∀ (s : State) (n : Nat), (validateCore s n).startOk = false ∨ (validateCore s n).endOk = false →
      (validateCore s n).valid = false)
  ∧ (∀ (s s' : State) (n : Nat), (∀ i, i < n → frameByte s' i = frameByte s i) →
      validateCore s' n = validateCore s n)

/-- Derived from 30_encoding.md R110 to R114 and 41_validator.md R160 to R167: VALIDATE answers `RESULT` = 1
exactly when the buffer holds the frame of some message, built from the frame format. -/
def Obligations.ValidateAcceptsExactlyTheFrames : Prop :=
  ∀ s : State, ∃ t, exec .validate s = .next t
    ∧ (t.status.results.result = true ↔ ∃ type payload, HoldsMessage type payload s)

/-- Derived from 40_crc.md R146 (whose general claim the spec marks as general knowledge) and 41_validator.md
R163, R167, R168: flipping any one bit of an accepted frame makes VALIDATE reject it, and which part of the
verdict shows it. -/
def Obligations.SingleBitFlipIsRejected : Prop :=
  ∀ (s t : State) (k b : Nat), exec .validate s = .next t → t.status.results.result = true →
    k < s.frameLen.toNat → b < 8 →
    ∃ u, exec .validate (flipFrameBit k b s) = .next u ∧ u.status.results.result = false
      ∧ (1 ≤ k → k + 4 ≤ s.frameLen.toNat → u.calcCrc ≠ t.calcCrc)
      ∧ (k + 3 = s.frameLen.toNat ∨ k + 2 = s.frameLen.toNat → u.rxCrc ≠ t.rxCrc)
      ∧ (k = 1 → u.status.results.lenOk = false)

/-- Derived from 41_validator.md R169: on a consistent length field the verdict is the reference's (markers
and CRC), and on any other it is a rejection. -/
def Obligations.VerdictAgainstReference : Prop :=
  ∀ (s : State) (n : Nat),
    (6 ≤ n → n ≤ 256 → (frameByte s 1).toNat = n - 2 →
      ((validateCore s n).valid = true ↔
        frameByte s 0 = 0x9B#8 ∧ frameByte s (n - 1) = 0x9D#8
          ∧ frameByte s (n - 3) ++ frameByte s (n - 2) = crc16 (bytesAt s 1 (n - 4))))
    ∧ (¬ (6 ≤ n ∧ n ≤ 256 ∧ (frameByte s 1).toNat = n - 2) → (validateCore s n).valid = false)

/-! ## Seven-segment decoder and PARSE -/

/-- 42_decoder.md R190, R191, R195: SEG_DECODE's encoding, its illegal forms, its effect on a digit's pattern
and on any other, and its frame. -/
def Obligations.SegDecodeCommand : Prop :=
  (∀ b : Byte, decode (0x00000020#32 ||| (b.setWidth 32 <<< 8)) = .ok (.segDecode b))
  ∧ IllegalFormsOf 0x20#8 true
  ∧ (∀ p : BitVec 7, segLut p = decodedChar p)
  ∧ (∀ b : Byte, segChars b = decodedText b ∧ segUnrec b = unrecognised b)
  ∧ (∀ (s : State) (b : Byte), ∃ t, exec (.segDecode b) s = .next t
      ∧ readReg t .segOut = (decodedChar (b.setWidth 7)).setWidth 32 ||| bitAt (b.getLsbD 7) 8
          ||| bitAt (unrecognised b) 9
      ∧ readReg t .status = 0x00000002#32 ||| bitAt (unrecognised b) 10
      ∧ Frame [.segOut, .status] 0 s t)

/-- 42_decoder.md R192, R193, R194, R200: DECODE_PAYLOAD's encoding, its illegal forms, its reading and its
frame where the range fits (an empty range included), and its `RANGE` error where it does not. -/
def Obligations.DecodePayloadCommand : Prop :=
  decode 0x00000021#32 = .ok .decodePayload ∧ IllegalFormsOf 0x21#8 false
  ∧ (∀ s : State, s.argStart.toNat + s.argCount.toNat ≤ 256 →
      ∃ t, exec .decodePayload s = .next t
      ∧ OutBufHolds ((bytesAt s s.argStart.toNat s.argCount.toNat).flatMap decodedText) t
      ∧ readReg t .outLen = BitVec.ofNat 32
          ((bytesAt s s.argStart.toNat s.argCount.toNat).flatMap decodedText).length
      ∧ readReg t .status = 0x00000002#32 ||| bitAt (decide (s.argCount.toNat = 0)) 9
          ||| bitAt ((bytesAt s s.argStart.toNat s.argCount.toNat).any unrecognised) 10
      ∧ Frame [.outLen, .status]
          ((bytesAt s s.argStart.toNat s.argCount.toNat).flatMap decodedText).length s t)
  ∧ (∀ s : State, 256 < s.argStart.toNat + s.argCount.toNat →
      ∃ t, exec .decodePayload s = .next t ∧ EndsInError rangeStatus s t)

/-- Derived from 42_decoder.md R193: a run gives one or two codes for every payload byte, and the reading of
a run is the readings of its parts, one after the other. -/
def Obligations.DecodeRunBoundsAndConcatenation : Prop :=
  ∀ (s : State) (base m n : Nat),
    m ≤ (decodeRun s base m).codes.length ∧ (decodeRun s base m).codes.length ≤ 2 * m
    ∧ (decodeRun s base (m + n)).codes = (decodeRun s base m).codes ++ (decodeRun s (base + m) n).codes
    ∧ (decodeRun s base (m + n)).unrecAny
        = ((decodeRun s base m).unrecAny || (decodeRun s (base + m) n).unrecAny)

/-- 42_decoder.md R205, R206: PARSE's encoding, its illegal forms, and its effect and frame on a rejected
frame, on a Height frame and on a frame of another type. -/
def Obligations.ParseCommand : Prop :=
  decode 0x00000030#32 = .ok .parse ∧ IllegalFormsOf 0x30#8 false
  ∧ ∀ s : State, ∃ t, exec .parse s = .next t
      ∧ readReg t .rxCrc = (validateCore s s.frameLen.toNat).rxCrc.setWidth 32
      ∧ readReg t .calcCrc = (validateCore s s.frameLen.toNat).calcCrc.setWidth 32
      ∧ ((validateCore s s.frameLen.toNat).valid = false →
          readReg t .msgType = 0#32 ∧ readReg t .payLen = 0#32 ∧ readReg t .outLen = 0#32
          ∧ readReg t .status = 0x00000002#32 ||| checkBits (validateCore s s.frameLen.toNat)
          ∧ Frame [.rxCrc, .calcCrc, .msgType, .payLen, .outLen, .status] 0 s t)
      ∧ ((validateCore s s.frameLen.toNat).valid = true → frameByte s 2 = 0x12#8 →
          readReg t .msgType = 0x12#32
          ∧ readReg t .payLen = BitVec.ofNat 32 ((frameByte s 1).toNat - 4)
          ∧ OutBufHolds ((bytesAt s 3 ((frameByte s 1).toNat - 4)).flatMap decodedText) t
          ∧ readReg t .outLen = BitVec.ofNat 32
              ((bytesAt s 3 ((frameByte s 1).toNat - 4)).flatMap decodedText).length
          ∧ readReg t .status = 0x000000FE#32 ||| bitAt (decide ((frameByte s 1).toNat = 4)) 9
              ||| bitAt ((bytesAt s 3 ((frameByte s 1).toNat - 4)).any unrecognised) 10
          ∧ Frame [.rxCrc, .calcCrc, .msgType, .payLen, .outLen, .status]
              ((bytesAt s 3 ((frameByte s 1).toNat - 4)).flatMap decodedText).length s t)
      ∧ ((validateCore s s.frameLen.toNat).valid = true → frameByte s 2 ≠ 0x12#8 →
          readReg t .msgType = (frameByte s 2).setWidth 32
          ∧ readReg t .payLen = BitVec.ofNat 32 ((frameByte s 1).toNat - 4)
          ∧ readReg t .outLen = 0#32 ∧ readReg t .status = 0x0000017A#32
          ∧ Frame [.rxCrc, .calcCrc, .msgType, .payLen, .outLen, .status] 0 s t)

/-- 42_decoder.md R208: unless validation passes, PARSE decodes no payload byte and writes no byte of
`OUT_BUF`; and whatever PARSE writes there, it writes for a valid Height frame. -/
def Obligations.ParseSingleGate : Prop :=
  ∀ s t : State, exec .parse s = .next t →
    ((validateCore s s.frameLen.toNat).valid = false →
      KeepsOutBufFrom 0 s t ∧ t.outLen = 0#10 ∧ t.status.results.unrecSeen = false
        ∧ t.status.results.emptyPayload = false)
    ∧ (∀ j, outByte t j ≠ outByte s j →
      (validateCore s s.frameLen.toNat).valid = true ∧ frameByte s 2 = 0x12#8)

/-- Derived from 30_encoding.md R110 to R116 and 42_decoder.md R205, R209: PARSE reads back the message a
frame was built from: a Height message's text, or the notice for any other type. -/
def Obligations.ParseReadsBackBuiltFrames : Prop :=
  ∀ (type : Byte) (payload : List Byte) (s : State), HoldsMessage type payload s →
    ∃ t, exec .parse s = .next t ∧ t.msgType = type ∧ t.payLen.toNat = payload.length
      ∧ (type = 0x12#8 →
          t.status.results.result = true ∧ t.outLen.toNat = (payload.flatMap decodedText).length
          ∧ OutBufHolds (payload.flatMap decodedText) t)
      ∧ (type ≠ 0x12#8 →
          t.status.results.result = false ∧ t.status.results.unknownType = true ∧ t.outLen = 0#10
          ∧ KeepsOutBufFrom 0 s t)

/-- 42_decoder.md R209: a valid frame of an unknown type is a failure, with the notice. -/
def Obligations.UnknownTypeIsFailure : Prop :=
  ∀ s : State, (validateCore s s.frameLen.toNat).valid = true → frameByte s 2 ≠ 0x12#8 →
    ∃ t, exec .parse s = .next t ∧ t.status.results.result = false
      ∧ t.status.results.unknownType = true

/-- 42_decoder.md R210: a valid Height frame with an empty payload is a success, with the diagnostic. -/
def Obligations.EmptyHeightPayloadIsSuccess : Prop :=
  ∀ s : State, HoldsMessage 0x12#8 [] s →
    ∃ t, exec .parse s = .next t ∧ t.status.results.result = true ∧ t.outLen = 0#10
      ∧ t.status.results.emptyPayload = true ∧ t.status.results.err = .none

/-- 20_memory.md R74: a command changes `OUT_BUF` only below its own `OUT_LEN`, which is at most 512. -/
def Obligations.OutBufWrittenBelowOutLenOnly : Prop :=
  ∀ (i : Instr) (s t : State) (j : Nat), exec i s = .next t → outByte t j ≠ outByte s j →
    j < t.outLen.toNat ∧ t.outLen.toNat ≤ 512

/-- Derived from 70_reset_and_hazards.md R281: a PARSE that does not decode leaves `OUT_LEN` = 0, so it
shows no old reading, and leaves every byte of `OUT_BUF`. -/
def Obligations.UndecodedParseShowsNoReading : Prop :=
  ∀ s t : State, exec .parse s = .next t → t.status.results.height = false →
    readReg t .outLen = 0#32 ∧ KeepsOutBufFrom 0 s t

/-- 70_reset_and_hazards.md R284: VALIDATE and PARSE read no byte of the buffer at `N` or above. -/
def Obligations.BytesPastTheFrameAreNotRead : Prop :=
  ∀ (i : Instr) (s : State) (m : Memory), i = .validate ∨ i = .parse →
    (∀ k, k < s.frameLen.toNat → frameByte { s with frameBuf := m } k = frameByte s k) →
    ∃ t, exec i s = .next t ∧ exec i { s with frameBuf := m } = .next { t with frameBuf := m }

/-! ## Errors -/

/-- 60_exceptions.md R241: a command that ends with an error code has no other effect. -/
def Obligations.ErrorsArePrecise : Prop :=
  ∀ (w : Word32) (s t : State), runCommand w s = .next t → t.status.results.err ≠ .none →
    (t.status.results.err = .illegalCmd ∧ EndsInError 0x1002#32 s t)
    ∨ (t.status.results.err = .range ∧ EndsInError 0x2002#32 s t)

/-- 60_exceptions.md R240, R244: which code a command word ends with. An illegal word is never
range-checked, only the two range commands can raise `RANGE`, and no other code is produced. -/
def Obligations.ErrorCodeCauses : Prop :=
  ∀ (w : Word32) (s : State), ∃ t, runCommand w s = .next t
    ∧ ((readReg t .status).extractLsb' 12 4 = 0x1#4 ↔ ∃ why, decode w = .error why)
    ∧ ((readReg t .status).extractLsb' 12 4 = 0x2#4 ↔
        (decode w = .ok .crcBuf ∨ decode w = .ok .decodePayload)
          ∧ 256 < s.argStart.toNat + s.argCount.toNat)
    ∧ ((readReg t .status).extractLsb' 12 4 = 0x0#4
        ∨ (readReg t .status).extractLsb' 12 4 = 0x1#4
        ∨ (readReg t .status).extractLsb' 12 4 = 0x2#4)

/-- 60_exceptions.md R243: the range is an exact sum, and past 256 both range commands raise `RANGE`
whatever `FRAME_BUF` holds. -/
def Obligations.RangeErrorReadsNoFrameByte : Prop :=
  ∀ (i : Instr) (s : State), i = .crcBuf ∨ i = .decodePayload →
    s.argStart.toNat + s.argCount.toNat ≤ 1022
    ∧ (256 < s.argStart.toNat + s.argCount.toNat →
        ∃ t, exec i s = .next t ∧ EndsInError rangeStatus s t
          ∧ ∀ m : Memory, exec i { s with frameBuf := m } = .next { t with frameBuf := m })

/-! ## Rules over all commands -/

/-- Derived from 10_state.md R26, R27, R35 and 20_memory.md R73: no command word writes `FRAME_LEN`, `ARG` or
a byte of `FRAME_BUF`. -/
def Obligations.CommandsNeverWriteTheirInputs : Prop :=
  ∀ (w : Word32) (s t : State), runCommand w s = .next t →
    readReg t .frameLen = readReg s .frameLen ∧ readReg t .arg = readReg s .arg ∧ KeepsFrameBuf s t

/-- Derived from 10_state.md R28 to R34: which commands write which register. -/
def Obligations.EachRegisterHasItsWriters : Prop :=
  ∀ (i : Instr) (s t : State), exec i s = .next t →
    (readReg t .crc ≠ readReg s .crc → i = .crcInit ∨ i = .crcBuf ∨ ∃ b, i = .crcByte b)
    ∧ (readReg t .rxCrc ≠ readReg s .rxCrc → i = .validate ∨ i = .parse)
    ∧ (readReg t .calcCrc ≠ readReg s .calcCrc → i = .validate ∨ i = .parse)
    ∧ (readReg t .msgType ≠ readReg s .msgType → i = .parse)
    ∧ (readReg t .payLen ≠ readReg s .payLen → i = .parse)
    ∧ (readReg t .segOut ≠ readReg s .segOut → ∃ b, i = .segDecode b)
    ∧ (readReg t .outLen ≠ readReg s .outLen → i = .decodePayload ∨ i = .parse)
    ∧ (t.status.results.result = true → i = .validate ∨ i = .parse)

/-- Derived from 20_memory.md R73: no command word reads `OUT_BUF`: its registers come out the same whatever
`OUT_BUF` holds, and so does every byte it writes there. -/
def Obligations.CommandsNeverReadOutBuf : Prop :=
  ∀ (w : Word32) (s t : State) (m : Memory), runCommand w s = .next t →
    ∃ u, runCommand w { s with outBuf := m } = .next u ∧ (∀ r, readReg u r = readReg t r)
      ∧ (∀ j, outByte t j ≠ outByte s j → outByte u j = outByte t j)

/-- 10_state.md R24: acceptance clears every result field, sets `BUSY` and clears `DONE`; completion clears
`BUSY`, sets `DONE`, and gives the result fields whatever `STATUS` was before, so no value mixes two
commands. -/
def Obligations.StatusNeverMixesCommands : Prop :=
  (∀ (w : Word32) (s : State), (acceptCommand w s).status.busy = true
      ∧ (acceptCommand w s).status.done = false ∧ (acceptCommand w s).status.results = {})
  ∧ (∀ (w : Word32) (s t : State) (st : Status), runCommand w s = .next t →
      t.status.busy = false ∧ t.status.done = true
      ∧ runCommand w { s with status := st } = .next t)

/-- Derived from 30_encoding.md R92 and 60_exceptions.md R242, R246: the machine never stops: every step
answers a next state. That there is no fault and no refusal to end in is log entry 18's, and that a turn with
nothing to do answers a next state is the model's choice (log entry 9). -/
def Obligations.EveryStepAnswersNext : Prop :=
  ∀ s : State, ∃ t, step s = .next t

/-- The invariant holds at reset (70_reset_and_hazards.md R270). -/
def Obligations.InvariantAtReset : Prop := State.reset.Inv

/-- Every step keeps the invariant: canonical buffers, `BUSY` exactly while a command is in flight, result
fields only of a completed command, errors alone, `RESULT` only with all checks passed, and the bounds of
`OUT_LEN`, `PAY_LEN` and `SEG_OUT`. -/
def Obligations.InvariantKeptByEveryStep : Prop :=
  ∀ s t : State, s.Inv → step s = .next t → t.Inv

/-- A step with the core to move runs the command in flight: `exec` of the decoded command, or
`ILLEGAL_CMD` for a word that does not decode (30_encoding.md R91, R99, 60_exceptions.md R242). The schedule
moves on around it; it is the model's own (log entries 2 and 3). -/
def Obligations.StepRunsTheDecodedCommand : Prop :=
  ∀ (s : State) (w : Word32) (rest : List Turn), s.inflight = some w →
    (∀ i : Instr, decode w = .ok i →
      (s.turns = .core :: rest → step s = exec i { s with turns := rest })
      ∧ (s.turns = [] → step s = exec i s))
    ∧ (∀ why, decode w = .error why →
      (s.turns = .core :: rest → step s = raiseCmdError .illegalCmd { s with turns := rest })
      ∧ (s.turns = [] → step s = raiseCmdError .illegalCmd s))

/-! ## The host bus and the life of a command -/

/-- 20_memory.md R62, R63, R64: an access gets a bus error exactly when it is not an aligned 32-bit access to
the registers or an 8-bit access to the buffers. -/
def Obligations.BusErrorsExactly : Prop :=
  ∀ (s : State) (a : Access), (performAccess s a).2 = .busError ↔
    ¬ ((accessWidth a = .w32 ∧ accessOffset a < 0x02C ∧ accessOffset a % 4 = 0)
      ∨ (accessWidth a = .w8 ∧ 0x100 ≤ accessOffset a))

/-- 20_memory.md R65: a bus error changes nothing of the block, and the host gets the error response and no
data. -/
def Obligations.BusErrorChangesNothing : Prop :=
  ∀ (s : State) (a : Access), (performAccess s a).2 = .busError →
    (performAccess s a).1 = s
    ∧ ∀ ops : List HostOp, s.pending = .access a :: ops → held s a = false →
        hostTurn s = { s with pending := ops, replies := .busError :: s.replies }

/-- 20_memory.md R66: the effect of every access that is not a bus error and not held. -/
def Obligations.HostAccessEffects : Prop :=
  ∀ s : State,
    (∀ w : Word32, ∃ t, performAccess s (.write32 0x000#10 w) = (t, .ok) ∧ t.inflight = some w
      ∧ readReg t .status = 0x00000001#32 ∧ KeepsRegsExcept [.status] s t ∧ KeepsFrameBuf s t
      ∧ KeepsOutBufFrom 0 s t)
    ∧ (∀ v : Word32, ∃ t, performAccess s (.write32 0x008#10 v) = (t, .ok)
      ∧ readReg t .frameLen = v &&& 0x000001FF#32 ∧ KeepsRegsExcept [.frameLen] s t
      ∧ t.inflight = s.inflight ∧ KeepsFrameBuf s t ∧ KeepsOutBufFrom 0 s t)
    ∧ (∀ v : Word32, ∃ t, performAccess s (.write32 0x00C#10 v) = (t, .ok)
      ∧ readReg t .arg = v &&& 0x01FF01FF#32 ∧ KeepsRegsExcept [.arg] s t
      ∧ t.inflight = s.inflight ∧ KeepsFrameBuf s t ∧ KeepsOutBufFrom 0 s t)
    ∧ (∀ (i : Nat) (v : Byte), i < 256 →
      ∃ t, performAccess s (.write8 (BitVec.ofNat 10 (0x100 + i)) v) = (t, .ok)
      ∧ frameByte t i = v ∧ (∀ k, k ≠ i → frameByte t k = frameByte s k)
      ∧ KeepsRegsExcept [] s t ∧ t.inflight = s.inflight ∧ KeepsOutBufFrom 0 s t)
    ∧ (∀ (r : Reg) (v : Word32), readOnly r → performAccess s (.write32 (regOffset r) v) = (s, .ok))
    ∧ (∀ (j : Nat) (v : Byte), j < 512 →
      performAccess s (.write8 (BitVec.ofNat 10 (0x200 + j)) v) = (s, .ok))
    ∧ (∀ r : Reg, performAccess s (.read .w32 (regOffset r)) = (s, .data32 (readReg s r)))
    ∧ readReg s .cmd = 0x00000000#32
    ∧ (∀ i : Nat, i < 256 →
      performAccess s (.read .w8 (BitVec.ofNat 10 (0x100 + i))) = (s, .data8 (frameByte s i)))
    ∧ (∀ j : Nat, j < 512 →
      performAccess s (.read .w8 (BitVec.ofNat 10 (0x200 + j))) = (s, .data8 (outByte s j)))

/-- 20_memory.md R67: a read changes nothing, and repeating any access but a write to `CMD` changes nothing
more and gets the same reply. -/
def Obligations.ReadsAndStoresAreIdempotent : Prop :=
  ∀ (s : State) (a : Access),
    (isRead a = true → (performAccess s a).1 = s)
    ∧ ((∀ w, a ≠ .write32 0x000#10 w) → performAccess (performAccess s a).1 a = performAccess s a)

/-- Derived from 20_memory.md R65, R66, R68, R75 (the turns and the default turn are the model's own, log
entries 2 and 3, and so is the list of replies, log entry 1): the host's next operation, where it is not held,
is performed in the host's step. The block's state after the step is the one `performAccess` gives, which
HostAccessEffects and BusErrorsExactly describe; the reply is recorded, and the host goes on to its next
operation, except after a `wait` that read `DONE` = 0 (log entry 15). No access touches the host's side. -/
def Obligations.HostStepPerformsItsAccess : Prop :=
  (∀ (s : State) (op : HostOp) (ops : List HostOp),
      s.pending = op :: ops →
      ((∃ rest, s.turns = .host :: rest) ∨ (s.turns = [] ∧ s.inflight = none)) →
      (s.status.busy = false ∨ accessOf op = .read .w32 0x004#10) →
      step s = .next
        { (performAccess s (accessOf op)).1 with
          turns := s.turns.tail
          pending := if op = .wait ∧ s.status.done = false then op :: ops else ops
          replies := (performAccess s (accessOf op)).2 :: s.replies })
  ∧ (∀ (s : State) (a : Access), KeepsHost s (performAccess s a).1)

/-- Derived from 20_memory.md R68 (the turns are the model's own, log entry 2): while `BUSY` = 1 an access
other than a 32-bit read of `STATUS` waits and has no effect; a read of `STATUS` is answered with `0x00000001`;
a completion lifts the hold and leaves the waiting operation first, and the host's next turn performs it, with
its whole effect, against the state after completion; and a reset lifts the hold. -/
def Obligations.HoldRule : Prop :=
  (∀ (s : State) (op : HostOp) (ops : List HostOp) (rest : List Turn),
      s.status.busy = true → s.turns = .host :: rest → s.pending = op :: ops →
      accessOf op ≠ .read .w32 0x004#10 → step s = .next { s with turns := rest })
  ∧ (∀ (s : State) (ops : List HostOp) (rest : List Turn), s.Inv → s.status.busy = true →
      s.turns = .host :: rest → s.pending = .access (.read .w32 0x004#10) :: ops →
      step s = .next
        { s with turns := rest, pending := ops, replies := .data32 0x00000001#32 :: s.replies })
  ∧ (∀ (w : Word32) (s t : State) (op : HostOp) (ops : List HostOp), s.pending = op :: ops →
      runCommand w s = .next t →
      t.pending = op :: ops ∧ held t (accessOf op) = false
      ∧ hostTurn t =
          { (performAccess t (accessOf op)).1 with
            pending := ops, replies := (performAccess t (accessOf op)).2 :: t.replies })
  ∧ (∀ (s : State) (ops : List HostOp) (a : Access), held (resetBlock ops s) a = false)

/-- Derived from 30_encoding.md R98 (the turns are the model's own, log entry 2): a `CMD` write while idle is
accepted at once: the word is in flight, `STATUS` is `0x00000001`, nothing else changes. While `BUSY` = 1 it
waits, and it is accepted after the command in flight completes. -/
def Obligations.AcceptanceOfCommands : Prop :=
  ∀ (s : State) (w : Word32) (ops : List HostOp) (rest : List Turn),
    s.pending = .access (.write32 0x000#10 w) :: ops →
    (s.turns = .host :: rest → s.status.busy = false →
      ∃ t, step s = .next t ∧ t.inflight = some w ∧ readReg t .status = 0x00000001#32
        ∧ KeepsRegsExcept [.status] s t ∧ KeepsFrameBuf s t ∧ KeepsOutBufFrom 0 s t
        ∧ t.pending = ops ∧ t.turns = rest ∧ t.replies = .ok :: s.replies)
    ∧ (s.turns = .host :: rest → s.status.busy = true → step s = .next { s with turns := rest })
    ∧ (∀ v : Word32, s.turns = .core :: .host :: rest → s.inflight = some v →
      ∃ t u, step s = .next t ∧ t.inflight = none ∧ step t = .next u ∧ u.inflight = some w
        ∧ readReg u .status = 0x00000001#32)

/-- Derived from 30_encoding.md R99 (the turns are the model's own, log entries 2 and 3): a completion drops
the command in flight, clears `BUSY` and sets `DONE`, in the one step that writes its results; the host's side
is untouched. -/
def Obligations.CompletionOfCommands : Prop :=
  ∀ (w : Word32) (s : State), s.inflight = some w → s.turns = [] ∨ (∃ rest, s.turns = .core :: rest) →
    ∃ t, step s = .next t ∧ t.inflight = none ∧ (readReg t .status).extractLsb' 0 2 = 0x2#2
      ∧ t.pending = s.pending ∧ t.replies = s.replies ∧ t.turns = s.turns.tail
      ∧ t.resetCount = s.resetCount

/-- 30_encoding.md R100: no command starts before the one in flight has completed: a step from a state with a
command in flight keeps that command, or ends it. -/
def Obligations.OneCommandAtATime : Prop :=
  ∀ (s t : State) (w : Word32), s.Inv → s.inflight = some w → step s = .next t →
    t.inflight = some w ∨ t.inflight = none

/-- Derived from 10_state.md R37, 30_encoding.md R94 and 20_memory.md R68: while a command stays in flight no
step changes an operand, a byte of a buffer or any other register, so it reads at completion what it would
have read at acceptance (log entry 4). -/
def Obligations.OperandsAreStableInFlight : Prop :=
  ∀ (s t : State) (w : Word32), s.Inv → s.inflight = some w → step s = .next t →
    t.inflight = some w →
    (∀ r, readReg t r = readReg s r) ∧ KeepsFrameBuf s t ∧ KeepsOutBufFrom 0 s t

/-- Derived from 70_reset_and_hazards.md R283 and 30_encoding.md R101: every accepted command ends after
finitely many steps, whatever the schedule: at the latest when the schedule's turns are used up (the schedule
is the model's own, log entries 2 and 3). -/
def Obligations.EveryCommandEnds : Prop :=
  ∀ (s : State) (w : Word32), s.Inv → s.inflight = some w →
    ∃ k t, k ≤ s.turns.length + 1 ∧ core.run k s = .next t ∧ t.inflight = none

/-- Derived from 70_reset_and_hazards.md R270 to R274 (the turns and the host's list are the model's own, log
entries 2, 6, 7): a reset from any state, idle or busy, gives every register its reset value, drops the command
in flight without writing a result, and leaves the block idle; power-on gives the same; and a held access is
discarded: the host goes on with `ops`. -/
def Obligations.ResetFromAnyState : Prop :=
  ∀ (s : State) (ops : List HostOp) (rest : List Turn), s.turns = .reset ops :: rest →
    ∃ t, step s = .next t
      ∧ readReg t .crc = 0x0000FFFF#32 ∧ (∀ r, r ≠ .crc → readReg t r = 0x00000000#32)
      ∧ (∀ r, readReg State.reset r = readReg t r)
      ∧ t.inflight = none ∧ State.reset.inflight = none ∧ t.status.busy = false
      ∧ t.status.done = false ∧ t.pending = ops

/-- Derived from 70_reset_and_hazards.md R270 (which draw a reset takes is the model's own numbering, log
entry 5): after a reset every byte of both buffers is that reset's draw, whatever it held before. -/
def Obligations.BuffersHoldTheDrawAfterReset : Prop :=
  ∀ (s : State) (ops : List HostOp) (i : Nat),
    frameByte (resetBlock ops s) i = Config.bufResetContent .frame (s.resetCount + 1) i
    ∧ outByte (resetBlock ops s) i = Config.bufResetContent .out (s.resetCount + 1) i
    ∧ frameByte State.reset i = Config.bufResetContent .frame 0 i
    ∧ outByte State.reset i = Config.bufResetContent .out 0 i

/-- 10_state.md R22: reserved bits read 0 in every state, and a write's reserved bits are ignored. -/
def Obligations.ReservedBitsReadZero : Prop :=
  ∀ (s : State) (r : Reg),
    readReg s r &&& ~~~ usedBits r = 0#32
    ∧ (r ≠ .cmd → ∀ v : Word32, writeReg s v r = writeReg s (v &&& usedBits r) r)

/-- Derived from 20_memory.md R60: for every base and address width, the block decodes exactly the 1024
addresses from `BASE` on, in order, and an access to any other address never reaches it. -/
def Obligations.WindowIsDecodedExactly : Prop :=
  ∀ (bus : Config.Bus) (addr : BitVec bus.addrWidth),
    (∀ off : BitVec 10, windowOffset bus addr = some off ↔ addr.toNat = bus.base.toNat + off.toNat)
    ∧ (∀ (access : BitVec 10 → Access) (s : State),
        ¬ (bus.base.toNat ≤ addr.toNat ∧ addr.toNat < bus.base.toNat + 1024) →
        hostIssues bus addr access s = s)

/-- Derived from 30_encoding.md R120, which gives the polling loop: `wait` reads `STATUS` on every turn of the
host and goes on exactly when it read `DONE` = 1; it changes nothing of the block. That it makes one read on
each host turn is the model's choice (log entry 15), and the turns are the model's own (log entry 2). -/
def Obligations.WaitPollsUntilDone : Prop :=
  ∀ (s : State) (ops : List HostOp) (rest : List Turn), s.turns = .host :: rest →
    s.pending = .wait :: ops →
    (s.status.done = true → step s = .next
      { s with turns := rest, pending := ops, replies := .data32 (readReg s .status) :: s.replies })
    ∧ (s.status.done = false → step s = .next
      { s with turns := rest, replies := .data32 (readReg s .status) :: s.replies })
end

