-- ==== Sys2Proof/Laws/Memory.lean ====
section
/-! SUPPORT. The laws of the buffers: read after write, the canonical form is kept by every operation, and
two canonical buffers that hold the same written bytes are the same list. -/

namespace Sys2Proof.Machine

@[simp] theorem Memory.get?_nil (i : Nat) : Memory.get? [] i = none := rfl

theorem Memory.get?_cons (a : Nat) (b : Byte) (m : Memory) (i : Nat) :
    Memory.get? ((a, b) :: m) i = if a = i then some b else Memory.get? m i := rfl

/-- Read after write: the index written reads as the value, every other index as before. -/
@[simp] theorem Memory.get?_set (m : Memory) (i j : Nat) (v : Byte) :
    Memory.get? (Memory.set m i v) j = if i = j then some v else Memory.get? m j := by
  induction m with
  | nil => simp [Memory.set, Memory.get?_cons]
  | cons cell m ih =>
    obtain ⟨a, b⟩ := cell
    unfold Memory.set
    split
    · simp [Memory.get?_cons]
    · split
      · subst i; simp only [Memory.get?_cons]; split <;> rfl
      · simp only [Memory.get?_cons, ih]; split <;> split <;> simp_all

/-- What a run of writes leaves: the bytes of the list at the indices from `k`, all else as before. -/
theorem Memory.get?_setList (bs : List Byte) : ∀ (m : Memory) (k j : Nat),
    Memory.get? (Memory.setList m k bs) j
      = if k ≤ j ∧ j < k + bs.length then bs[j - k]? else Memory.get? m j := by
  induction bs with
  | nil => intro m k j; simp [Memory.setList]
  | cons b bs ih =>
    intro m k j
    simp only [Memory.setList, ih, Memory.get?_set, List.length_cons]
    by_cases hk : k = j
    · subst hk
      simp [show ¬ (k + 1 ≤ k) by omega]
    · by_cases h : k + 1 ≤ j ∧ j < k + 1 + bs.length
      · rw [if_pos h, if_pos (by omega), show j - k = (j - (k + 1)) + 1 by omega]
        simp
      · rw [if_neg h, if_neg hk, if_neg (by omega)]

theorem Memory.wfFrom_mono {size lo lo' : Nat} {m : Memory} (h : Memory.wfFrom size lo m = true)
    (hl : lo' ≤ lo) : Memory.wfFrom size lo' m = true := by
  cases m with
  | nil => rfl
  | cons cell m =>
    simp only [Memory.wfFrom, Bool.and_eq_true, decide_eq_true_eq] at h ⊢
    exact ⟨⟨by omega, h.1.2⟩, h.2⟩

theorem Memory.wfFrom_set {size : Nat} {i : Nat} (v : Byte) (hi : i < size) (m : Memory) :
    ∀ lo, lo ≤ i → Memory.wfFrom size lo m = true →
      Memory.wfFrom size lo (Memory.set m i v) = true := by
  induction m with
  | nil => intro lo hl _; simp [Memory.set, Memory.wfFrom, hl, hi]
  | cons cell m ih =>
    obtain ⟨a, b⟩ := cell
    intro lo hl h
    simp only [Memory.wfFrom, Bool.and_eq_true, decide_eq_true_eq] at h
    unfold Memory.set
    split
    · simp only [Memory.wfFrom, Bool.and_eq_true, decide_eq_true_eq]
      exact ⟨⟨hl, hi⟩, ⟨by omega, h.1.2⟩, h.2⟩
    · split
      · subst i
        simp only [Memory.wfFrom, Bool.and_eq_true, decide_eq_true_eq]
        exact ⟨⟨hl, hi⟩, h.2⟩
      · simp only [Memory.wfFrom, Bool.and_eq_true, decide_eq_true_eq]
        exact ⟨h.1, ih _ (by omega) h.2⟩

/-- A write inside the buffer keeps the canonical form. -/
theorem Memory.wf_set {size i : Nat} {m : Memory} (v : Byte) (hi : i < size)
    (h : Memory.wf size m = true) : Memory.wf size (Memory.set m i v) = true :=
  Memory.wfFrom_set v hi m 0 (Nat.zero_le _) h

/-- A run of writes inside the buffer keeps the canonical form. -/
theorem Memory.wf_setList {size : Nat} (bs : List Byte) : ∀ (m : Memory) (k : Nat),
    k + bs.length ≤ size → Memory.wf size m = true →
      Memory.wf size (Memory.setList m k bs) = true := by
  induction bs with
  | nil => intro m k _ h; exact h
  | cons b bs ih =>
    intro m k hk h
    simp only [List.length_cons] at hk
    exact ih _ _ (by omega) (Memory.wf_set b (by omega) h)

theorem Memory.get?_eq_none_of_wfFrom {size : Nat} (m : Memory) : ∀ lo i,
    Memory.wfFrom size lo m = true → i < lo → Memory.get? m i = none := by
  induction m with
  | nil => intros; rfl
  | cons cell m ih =>
    obtain ⟨a, b⟩ := cell
    intro lo i h hi
    simp only [Memory.wfFrom, Bool.and_eq_true, decide_eq_true_eq] at h
    rw [Memory.get?_cons, if_neg (by omega)]
    exact ih _ _ h.2 (by omega)

/-- Canonical buffers that hold the same written bytes are the same list. -/
theorem Memory.ext_of_wfFrom {size : Nat} (m : Memory) : ∀ (m' : Memory) (lo : Nat),
    Memory.wfFrom size lo m = true → Memory.wfFrom size lo m' = true →
      (∀ i, Memory.get? m i = Memory.get? m' i) → m = m' := by
  induction m with
  | nil =>
    intro m' lo _ _ he
    cases m' with
    | nil => rfl
    | cons cell m' =>
      obtain ⟨a', b'⟩ := cell
      have := he a'
      rw [Memory.get?_cons, if_pos rfl] at this
      cases this
  | cons cell m ih =>
    obtain ⟨a, b⟩ := cell
    intro m' lo h h' he
    cases m' with
    | nil =>
      have := he a
      rw [Memory.get?_cons, if_pos rfl] at this
      cases this
    | cons cell' m' =>
      obtain ⟨a', b'⟩ := cell'
      simp only [Memory.wfFrom, Bool.and_eq_true, decide_eq_true_eq] at h h'
      have haa : a = a' := by
        rcases Nat.lt_trichotomy a a' with hlt | heq | hlt
        · have := he a
          rw [Memory.get?_cons, if_pos rfl, Memory.get?_cons, if_neg (by omega),
            Memory.get?_eq_none_of_wfFrom m' _ _ h'.2 (by omega)] at this
          cases this
        · exact heq
        · have := he a'
          rw [Memory.get?_cons, if_neg (by omega), Memory.get?_eq_none_of_wfFrom m _ _ h.2 (by omega),
            Memory.get?_cons, if_pos rfl] at this
          cases this
      subst haa
      have hb : b = b' := by simpa [Memory.get?_cons] using he a
      subst hb
      congr 1
      refine ih m' (a + 1) h.2 h'.2 fun i => ?_
      by_cases hi : a = i
      · subst hi
        rw [Memory.get?_eq_none_of_wfFrom m _ _ h.2 (by omega),
          Memory.get?_eq_none_of_wfFrom m' _ _ h'.2 (by omega)]
      · simpa [Memory.get?_cons, hi] using he i

/-- A byte of a buffer after a write. -/
@[simp] theorem Memory.byteAt_set (buf : Buffer) (k : Nat) (m : Memory) (i j : Nat) (v : Byte) :
    Memory.byteAt buf k (Memory.set m i v) j = if i = j then v else Memory.byteAt buf k m j := by
  simp only [Memory.byteAt, Memory.get?_set]
  split <;> rfl

/-- A byte of a buffer after a run of writes from index 0. -/
theorem Memory.byteAt_setList (buf : Buffer) (k : Nat) (m : Memory) (bs : List Byte) (j : Nat) :
    Memory.byteAt buf k (Memory.setList m 0 bs) j
      = if h : j < bs.length then bs[j] else Memory.byteAt buf k m j := by
  simp only [Memory.byteAt, Memory.get?_setList]
  by_cases h : j < bs.length <;> simp [h]

/-- Writing the same byte twice is writing it once (20_memory.md R67). -/
theorem Memory.set_set (m : Memory) (i : Nat) (v : Byte) :
    Memory.set (Memory.set m i v) i v = Memory.set m i v := by
  induction m with
  | nil => simp [Memory.set]
  | cons cell m ih =>
    obtain ⟨a, b⟩ := cell
    rcases Nat.lt_trichotomy i a with h | h | h
    · simp [Memory.set, h]
    · simp [Memory.set, h]
    · simp [Memory.set, show ¬ i < a by omega, show ¬ i = a by omega, ih]

end Sys2Proof.Machine
end

