-- ==== Sys2Proof/Laws/State.lean ====
section
/-! SUPPORT. One lemma per field per named update of State (true by rfl), so that no later proof unfolds a
record update. -/

namespace Sys2Proof.Machine

section Complete

variable (s : State) (r : Results)

@[simp] theorem complete_status : (complete s r).status = { busy := false, done := true, results := r } := rfl
@[simp] theorem complete_frameLen : (complete s r).frameLen = s.frameLen := rfl
@[simp] theorem complete_argStart : (complete s r).argStart = s.argStart := rfl
@[simp] theorem complete_argCount : (complete s r).argCount = s.argCount := rfl
@[simp] theorem complete_crc : (complete s r).crc = s.crc := rfl
@[simp] theorem complete_rxCrc : (complete s r).rxCrc = s.rxCrc := rfl
@[simp] theorem complete_calcCrc : (complete s r).calcCrc = s.calcCrc := rfl
@[simp] theorem complete_msgType : (complete s r).msgType = s.msgType := rfl
@[simp] theorem complete_payLen : (complete s r).payLen = s.payLen := rfl
@[simp] theorem complete_segOut : (complete s r).segOut = s.segOut := rfl
@[simp] theorem complete_outLen : (complete s r).outLen = s.outLen := rfl
@[simp] theorem complete_frameBuf : (complete s r).frameBuf = s.frameBuf := rfl
@[simp] theorem complete_outBuf : (complete s r).outBuf = s.outBuf := rfl
@[simp] theorem complete_inflight : (complete s r).inflight = none := rfl
@[simp] theorem complete_resetCount : (complete s r).resetCount = s.resetCount := rfl
@[simp] theorem complete_pending : (complete s r).pending = s.pending := rfl
@[simp] theorem complete_turns : (complete s r).turns = s.turns := rfl
@[simp] theorem complete_replies : (complete s r).replies = s.replies := rfl

end Complete

section AcceptCommand

variable (s : State) (w : Word32)

@[simp] theorem acceptCommand_status : (acceptCommand w s).status = { busy := true, done := false, results := {} } := rfl
@[simp] theorem acceptCommand_frameLen : (acceptCommand w s).frameLen = s.frameLen := rfl
@[simp] theorem acceptCommand_argStart : (acceptCommand w s).argStart = s.argStart := rfl
@[simp] theorem acceptCommand_argCount : (acceptCommand w s).argCount = s.argCount := rfl
@[simp] theorem acceptCommand_crc : (acceptCommand w s).crc = s.crc := rfl
@[simp] theorem acceptCommand_rxCrc : (acceptCommand w s).rxCrc = s.rxCrc := rfl
@[simp] theorem acceptCommand_calcCrc : (acceptCommand w s).calcCrc = s.calcCrc := rfl
@[simp] theorem acceptCommand_msgType : (acceptCommand w s).msgType = s.msgType := rfl
@[simp] theorem acceptCommand_payLen : (acceptCommand w s).payLen = s.payLen := rfl
@[simp] theorem acceptCommand_segOut : (acceptCommand w s).segOut = s.segOut := rfl
@[simp] theorem acceptCommand_outLen : (acceptCommand w s).outLen = s.outLen := rfl
@[simp] theorem acceptCommand_frameBuf : (acceptCommand w s).frameBuf = s.frameBuf := rfl
@[simp] theorem acceptCommand_outBuf : (acceptCommand w s).outBuf = s.outBuf := rfl
@[simp] theorem acceptCommand_inflight : (acceptCommand w s).inflight = some w := rfl
@[simp] theorem acceptCommand_resetCount : (acceptCommand w s).resetCount = s.resetCount := rfl
@[simp] theorem acceptCommand_pending : (acceptCommand w s).pending = s.pending := rfl
@[simp] theorem acceptCommand_turns : (acceptCommand w s).turns = s.turns := rfl
@[simp] theorem acceptCommand_replies : (acceptCommand w s).replies = s.replies := rfl

end AcceptCommand

section SetFrameByte

variable (s : State) (i : Nat) (v : Byte)

@[simp] theorem setFrameByte_status : (setFrameByte s i v).status = s.status := rfl
@[simp] theorem setFrameByte_frameLen : (setFrameByte s i v).frameLen = s.frameLen := rfl
@[simp] theorem setFrameByte_argStart : (setFrameByte s i v).argStart = s.argStart := rfl
@[simp] theorem setFrameByte_argCount : (setFrameByte s i v).argCount = s.argCount := rfl
@[simp] theorem setFrameByte_crc : (setFrameByte s i v).crc = s.crc := rfl
@[simp] theorem setFrameByte_rxCrc : (setFrameByte s i v).rxCrc = s.rxCrc := rfl
@[simp] theorem setFrameByte_calcCrc : (setFrameByte s i v).calcCrc = s.calcCrc := rfl
@[simp] theorem setFrameByte_msgType : (setFrameByte s i v).msgType = s.msgType := rfl
@[simp] theorem setFrameByte_payLen : (setFrameByte s i v).payLen = s.payLen := rfl
@[simp] theorem setFrameByte_segOut : (setFrameByte s i v).segOut = s.segOut := rfl
@[simp] theorem setFrameByte_outLen : (setFrameByte s i v).outLen = s.outLen := rfl
@[simp] theorem setFrameByte_frameBuf : (setFrameByte s i v).frameBuf = Memory.set s.frameBuf i v := rfl
@[simp] theorem setFrameByte_outBuf : (setFrameByte s i v).outBuf = s.outBuf := rfl
@[simp] theorem setFrameByte_inflight : (setFrameByte s i v).inflight = s.inflight := rfl
@[simp] theorem setFrameByte_resetCount : (setFrameByte s i v).resetCount = s.resetCount := rfl
@[simp] theorem setFrameByte_pending : (setFrameByte s i v).pending = s.pending := rfl
@[simp] theorem setFrameByte_turns : (setFrameByte s i v).turns = s.turns := rfl
@[simp] theorem setFrameByte_replies : (setFrameByte s i v).replies = s.replies := rfl

end SetFrameByte

section WriteReading

variable (s : State) (cs : List Byte)

@[simp] theorem writeReading_status : (writeReading s cs).status = s.status := rfl
@[simp] theorem writeReading_frameLen : (writeReading s cs).frameLen = s.frameLen := rfl
@[simp] theorem writeReading_argStart : (writeReading s cs).argStart = s.argStart := rfl
@[simp] theorem writeReading_argCount : (writeReading s cs).argCount = s.argCount := rfl
@[simp] theorem writeReading_crc : (writeReading s cs).crc = s.crc := rfl
@[simp] theorem writeReading_rxCrc : (writeReading s cs).rxCrc = s.rxCrc := rfl
@[simp] theorem writeReading_calcCrc : (writeReading s cs).calcCrc = s.calcCrc := rfl
@[simp] theorem writeReading_msgType : (writeReading s cs).msgType = s.msgType := rfl
@[simp] theorem writeReading_payLen : (writeReading s cs).payLen = s.payLen := rfl
@[simp] theorem writeReading_segOut : (writeReading s cs).segOut = s.segOut := rfl
@[simp] theorem writeReading_outLen : (writeReading s cs).outLen = BitVec.ofNat 10 cs.length := rfl
@[simp] theorem writeReading_frameBuf : (writeReading s cs).frameBuf = s.frameBuf := rfl
@[simp] theorem writeReading_outBuf : (writeReading s cs).outBuf = Memory.setList s.outBuf 0 cs := rfl
@[simp] theorem writeReading_inflight : (writeReading s cs).inflight = s.inflight := rfl
@[simp] theorem writeReading_resetCount : (writeReading s cs).resetCount = s.resetCount := rfl
@[simp] theorem writeReading_pending : (writeReading s cs).pending = s.pending := rfl
@[simp] theorem writeReading_turns : (writeReading s cs).turns = s.turns := rfl
@[simp] theorem writeReading_replies : (writeReading s cs).replies = s.replies := rfl

end WriteReading

section WriteCrcs

variable (s : State) (v : Verdict)

@[simp] theorem writeCrcs_status : (writeCrcs s v).status = s.status := rfl
@[simp] theorem writeCrcs_frameLen : (writeCrcs s v).frameLen = s.frameLen := rfl
@[simp] theorem writeCrcs_argStart : (writeCrcs s v).argStart = s.argStart := rfl
@[simp] theorem writeCrcs_argCount : (writeCrcs s v).argCount = s.argCount := rfl
@[simp] theorem writeCrcs_crc : (writeCrcs s v).crc = s.crc := rfl
@[simp] theorem writeCrcs_rxCrc : (writeCrcs s v).rxCrc = v.rxCrc := rfl
@[simp] theorem writeCrcs_calcCrc : (writeCrcs s v).calcCrc = v.calcCrc := rfl
@[simp] theorem writeCrcs_msgType : (writeCrcs s v).msgType = s.msgType := rfl
@[simp] theorem writeCrcs_payLen : (writeCrcs s v).payLen = s.payLen := rfl
@[simp] theorem writeCrcs_segOut : (writeCrcs s v).segOut = s.segOut := rfl
@[simp] theorem writeCrcs_outLen : (writeCrcs s v).outLen = s.outLen := rfl
@[simp] theorem writeCrcs_frameBuf : (writeCrcs s v).frameBuf = s.frameBuf := rfl
@[simp] theorem writeCrcs_outBuf : (writeCrcs s v).outBuf = s.outBuf := rfl
@[simp] theorem writeCrcs_inflight : (writeCrcs s v).inflight = s.inflight := rfl
@[simp] theorem writeCrcs_resetCount : (writeCrcs s v).resetCount = s.resetCount := rfl
@[simp] theorem writeCrcs_pending : (writeCrcs s v).pending = s.pending := rfl
@[simp] theorem writeCrcs_turns : (writeCrcs s v).turns = s.turns := rfl
@[simp] theorem writeCrcs_replies : (writeCrcs s v).replies = s.replies := rfl

end WriteCrcs

section ResetBlock

variable (s : State) (ops : List HostOp)

@[simp] theorem resetBlock_status : (resetBlock ops s).status = State.reset.status := rfl
@[simp] theorem resetBlock_frameLen : (resetBlock ops s).frameLen = State.reset.frameLen := rfl
@[simp] theorem resetBlock_argStart : (resetBlock ops s).argStart = State.reset.argStart := rfl
@[simp] theorem resetBlock_argCount : (resetBlock ops s).argCount = State.reset.argCount := rfl
@[simp] theorem resetBlock_crc : (resetBlock ops s).crc = State.reset.crc := rfl
@[simp] theorem resetBlock_rxCrc : (resetBlock ops s).rxCrc = State.reset.rxCrc := rfl
@[simp] theorem resetBlock_calcCrc : (resetBlock ops s).calcCrc = State.reset.calcCrc := rfl
@[simp] theorem resetBlock_msgType : (resetBlock ops s).msgType = State.reset.msgType := rfl
@[simp] theorem resetBlock_payLen : (resetBlock ops s).payLen = State.reset.payLen := rfl
@[simp] theorem resetBlock_segOut : (resetBlock ops s).segOut = State.reset.segOut := rfl
@[simp] theorem resetBlock_outLen : (resetBlock ops s).outLen = State.reset.outLen := rfl
@[simp] theorem resetBlock_frameBuf : (resetBlock ops s).frameBuf = State.reset.frameBuf := rfl
@[simp] theorem resetBlock_outBuf : (resetBlock ops s).outBuf = State.reset.outBuf := rfl
@[simp] theorem resetBlock_inflight : (resetBlock ops s).inflight = State.reset.inflight := rfl
@[simp] theorem resetBlock_resetCount : (resetBlock ops s).resetCount = s.resetCount + 1 := rfl
@[simp] theorem resetBlock_pending : (resetBlock ops s).pending = ops := rfl
@[simp] theorem resetBlock_turns : (resetBlock ops s).turns = s.turns := rfl
@[simp] theorem resetBlock_replies : (resetBlock ops s).replies = s.replies := rfl

end ResetBlock

end Sys2Proof.Machine
end

