-- ==== Sys2Proof/Laws/Bytes.lean ====
section
/-! SUPPORT. What the reads of a state's bytes and registers see of each named update, and the laws of the
byte ranges. -/

namespace Sys2Proof.Machine

/-! The bytes of the buffers depend on the buffer and the number of the draw alone. -/

theorem frameByte_congr {s t : State} (hb : t.frameBuf = s.frameBuf) (hc : t.resetCount = s.resetCount)
    (i : Nat) : frameByte t i = frameByte s i := by
  simp only [frameByte, hb, hc]

theorem outByte_congr {s t : State} (hb : t.outBuf = s.outBuf) (hc : t.resetCount = s.resetCount)
    (j : Nat) : outByte t j = outByte s j := by
  simp only [outByte, hb, hc]

@[simp] theorem frameByte_complete (s : State) (r : Results) (i : Nat) :
    frameByte (complete s r) i = frameByte s i := rfl

@[simp] theorem outByte_complete (s : State) (r : Results) (j : Nat) :
    outByte (complete s r) j = outByte s j := rfl

@[simp] theorem frameByte_writeCrcs (s : State) (v : Verdict) (i : Nat) :
    frameByte (writeCrcs s v) i = frameByte s i := rfl

@[simp] theorem outByte_writeCrcs (s : State) (v : Verdict) (j : Nat) :
    outByte (writeCrcs s v) j = outByte s j := rfl

@[simp] theorem frameByte_acceptCommand (s : State) (w : Word32) (i : Nat) :
    frameByte (acceptCommand w s) i = frameByte s i := rfl

@[simp] theorem outByte_acceptCommand (s : State) (w : Word32) (j : Nat) :
    outByte (acceptCommand w s) j = outByte s j := rfl

@[simp] theorem frameByte_writeReading (s : State) (cs : List Byte) (i : Nat) :
    frameByte (writeReading s cs) i = frameByte s i := rfl

/-- A reading stands at the front of `OUT_BUF`, and nothing else of it changes (R193, R74). -/
theorem outByte_writeReading (s : State) (cs : List Byte) (j : Nat) :
    outByte (writeReading s cs) j = if h : j < cs.length then cs[j] else outByte s j :=
  Memory.byteAt_setList _ _ _ _ _

/-- A host's byte write sets that byte of `FRAME_BUF` alone (20_memory.md R66). -/
@[simp] theorem frameByte_setFrameByte (s : State) (i j : Nat) (v : Byte) :
    frameByte (setFrameByte s i v) j = if i = j then v else frameByte s j :=
  Memory.byteAt_set _ _ _ _ _ _

@[simp] theorem outByte_setFrameByte (s : State) (i : Nat) (v : Byte) (j : Nat) :
    outByte (setFrameByte s i v) j = outByte s j := rfl

/-! Byte ranges. -/

@[simp] theorem length_frameBytes (s : State) (start count : Nat) :
    (frameBytes s start count).length = count := by
  induction count generalizing start with
  | zero => rfl
  | succ n ih => simp [frameBytes, ih]

/-- The bytes of a range, by index (R192). -/
theorem frameBytes_eq_map (s : State) (start count : Nat) :
    frameBytes s start count = (List.range count).map fun k => frameByte s (start + k) := by
  induction count generalizing start with
  | zero => rfl
  | succ n ih =>
    rw [frameBytes, ih, List.range_succ_eq_map]
    simp [Function.comp_def, Nat.add_assoc, Nat.add_comm 1]

theorem frameBytes_add (s : State) (start m n : Nat) :
    frameBytes s start (m + n) = frameBytes s start m ++ frameBytes s (start + m) n := by
  induction m generalizing start with
  | zero => simp [frameBytes]
  | succ m ih => rw [Nat.succ_add]; simp [frameBytes, ih, Nat.add_assoc, Nat.add_comm 1]

/-- Two states whose bytes agree on a range have the same range. -/
theorem frameBytes_congr {s t : State} {start count : Nat}
    (h : ∀ i, start ≤ i → i < start + count → frameByte t i = frameByte s i) :
    frameBytes t start count = frameBytes s start count := by
  induction count generalizing start with
  | zero => rfl
  | succ n ih =>
    simp only [frameBytes]
    rw [h start (by omega) (by omega), ih fun i h1 h2 => h i (by omega) (by omega)]

/-! Registers. -/

/-- A completion shows in `STATUS` alone. -/
theorem readReg_complete (s : State) (r : Results) {q : Reg} (hq : q ≠ .status) :
    readReg (complete s r) q = readReg s q := by
  cases q <;> first | rfl | exact absurd rfl hq

@[simp] theorem readReg_complete_status (s : State) (r : Results) :
    readReg (complete s r) .status = statusWord { busy := false, done := true, results := r } := rfl

/-- An acceptance shows in `STATUS` alone. -/
theorem readReg_acceptCommand (s : State) (w : Word32) {q : Reg} (hq : q ≠ .status) :
    readReg (acceptCommand w s) q = readReg s q := by
  cases q <;> first | rfl | exact absurd rfl hq

/-- After acceptance `STATUS` is `0x00000001` (30_encoding.md R98). -/
theorem readReg_acceptCommand_status (s : State) (w : Word32) :
    readReg (acceptCommand w s) .status = 0x00000001#32 := by
  simp only [readReg, acceptCommand_status]; decide

/-- A host's write of `FRAME_BUF` shows in no register. -/
@[simp] theorem readReg_setFrameByte (s : State) (i : Nat) (v : Byte) (q : Reg) :
    readReg (setFrameByte s i v) q = readReg s q := by cases q <;> rfl

/-- `writeReading` shows in `OUT_LEN` alone. -/
theorem readReg_writeReading (s : State) (cs : List Byte) {q : Reg} (hq : q ≠ .outLen) :
    readReg (writeReading s cs) q = readReg s q := by
  cases q <;> first | rfl | exact absurd rfl hq

/-- `writeCrcs` shows in `RX_CRC` and `CALC_CRC` alone. -/
theorem readReg_writeCrcs (s : State) (v : Verdict) {q : Reg} (h1 : q ≠ .rxCrc) (h2 : q ≠ .calcCrc) :
    readReg (writeCrcs s v) q = readReg s q := by
  cases q <;> first | rfl | exact absurd rfl h1 | exact absurd rfl h2

/-- The window's map and the host syntax agree on every register's offset (R61). -/
theorem locate_regOffset (r : Reg) : locate .w32 (regOffset r) = some (.reg r) := by
  cases r <;> decide

/-- `FRAME_BUF[i]` is at offset `0x100 + i`, for 8-bit accesses (R61, R63). -/
theorem locate_frame {i : Nat} (hi : i < 256) :
    locate .w8 (BitVec.ofNat 10 (0x100 + i)) = some (.frame i) := by
  have ho : (BitVec.ofNat 10 (0x100 + i)).toNat = 0x100 + i := by
    rw [BitVec.toNat_ofNat]; omega
  unfold locate
  rw [if_neg (by rw [ho, regsEnd]; omega), if_neg (by rw [ho, frameBase]; omega), if_pos rfl,
    if_pos (by rw [ho, outBase]; omega), ho, frameBase, Nat.add_sub_cancel_left]

/-- `OUT_BUF[j]` is at offset `0x200 + j`, for 8-bit accesses (R61, R63). -/
theorem locate_out {j : Nat} (hj : j < 512) :
    locate .w8 (BitVec.ofNat 10 (0x200 + j)) = some (.out j) := by
  have ho : (BitVec.ofNat 10 (0x200 + j)).toNat = 0x200 + j := by
    rw [BitVec.toNat_ofNat]; omega
  unfold locate
  rw [if_neg (by rw [ho, regsEnd]; omega), if_neg (by rw [ho, frameBase]; omega), if_pos rfl,
    if_neg (by rw [ho, outBase]; omega), ho, outBase, Nat.add_sub_cancel_left]

end Sys2Proof.Machine
end

