-- ==== Sys2Proof/Laws/Commands.lean ====
section
/-! SUPPORT. What each command can do, said once: if it answers next, the state it answers. Every later proof
cites these and unfolds no meaning. -/

namespace Sys2Proof.Machine

/-- `raise CmdError` answers the completion with that code (60_exceptions.md R241). -/
@[simp] theorem raiseCmdError_eq (code : ErrCode) (s : State) :
    raiseCmdError code s = .next (complete s { err := code }) := rfl

/-- The range check, as the spec writes it (R243). -/
@[simp] theorem rangeError_iff (s : State) :
    rangeError s = true ↔ 256 < s.argStart.toNat + s.argCount.toNat := by
  rw [rangeError, decide_eq_true_eq]; rfl

theorem execCrcBuf_next {s t : State} (h : execCrcBuf s = .next t) :
    (rangeError s = true ∧ t = complete s { err := .range })
      ∨ (rangeError s = false ∧ t = complete { s with crc := crc16 (rangeBytes s) } {}) := by
  unfold execCrcBuf at h
  cases hr : rangeError s <;> simp only [hr, if_true, Bool.false_eq_true, if_false] at h <;> cases h
  · exact .inr ⟨rfl, rfl⟩
  · exact .inl ⟨rfl, rfl⟩

theorem execDecodePayload_next {s t : State} (h : execDecodePayload s = .next t) :
    (rangeError s = true ∧ t = complete s { err := .range })
      ∨ (rangeError s = false ∧
          t = complete (writeReading s (readingOf (rangeBytes s)).codes)
            { emptyPayload := decide (operandC s = 0),
              unrecSeen := (readingOf (rangeBytes s)).unrecAny }) := by
  unfold execDecodePayload at h
  cases hr : rangeError s <;> simp only [hr, if_true, Bool.false_eq_true, if_false] at h <;> cases h
  · exact .inr ⟨rfl, rfl⟩
  · exact .inl ⟨rfl, rfl⟩

theorem execParse_next {s t : State} (h : execParse s = .next t) :
    ((validateCore s (operandN s)).valid = false
        ∧ t = parseRejected s (validateCore s (operandN s)))
      ∨ ((validateCore s (operandN s)).valid = true ∧ frameByte s 2 = 0x12#8
        ∧ t = parseHeight s (validateCore s (operandN s)))
      ∨ ((validateCore s (operandN s)).valid = true ∧ frameByte s 2 ≠ 0x12#8
        ∧ t = parseUnknown s (validateCore s (operandN s))) := by
  unfold execParse at h
  cases hv : (validateCore s (operandN s)).valid <;>
    simp only [hv, if_true, Bool.false_eq_true, if_false] at h
  · cases h; exact .inl ⟨rfl, rfl⟩
  · by_cases ht : frameByte s 2 = 0x12#8
    · rw [if_pos (by simp [messageType, ht])] at h
      cases h; exact .inr (.inl ⟨rfl, ht, rfl⟩)
    · rw [if_neg (by simpa [messageType] using ht)] at h
      cases h; exact .inr (.inr ⟨rfl, ht, rfl⟩)

/-- Every state a command can answer (30_encoding.md R91, R99), one case per way to complete. -/
theorem exec_next {i : Instr} {s t : State} (h : exec i s = .next t) :
    (i = .crcInit ∧ t = complete { s with crc := Config.crcInit } {})
      ∨ (∃ b, i = .crcByte b ∧ t = complete { s with crc := crc16Step s.crc b } {})
      ∨ ((i = .crcBuf ∨ i = .decodePayload) ∧ rangeError s = true ∧ t = complete s { err := .range })
      ∨ (i = .crcBuf ∧ rangeError s = false
          ∧ t = complete { s with crc := crc16 (rangeBytes s) } {})
      ∨ (i = .validate ∧ t = complete (writeCrcs s (validateCore s (operandN s)))
          { checkResults (validateCore s (operandN s)) with
            result := (validateCore s (operandN s)).valid })
      ∨ (∃ b, i = .segDecode b ∧ t = complete
          { s with segOut := ⟨segLut (patternOf b), dpOf b, segUnrec b⟩ }
          { unrecSeen := segUnrec b })
      ∨ (i = .decodePayload ∧ rangeError s = false
          ∧ t = complete (writeReading s (readingOf (rangeBytes s)).codes)
            { emptyPayload := decide (operandC s = 0),
              unrecSeen := (readingOf (rangeBytes s)).unrecAny })
      ∨ (i = .parse ∧ (validateCore s (operandN s)).valid = false
          ∧ t = parseRejected s (validateCore s (operandN s)))
      ∨ (i = .parse ∧ (validateCore s (operandN s)).valid = true ∧ frameByte s 2 = 0x12#8
          ∧ t = parseHeight s (validateCore s (operandN s)))
      ∨ (i = .parse ∧ (validateCore s (operandN s)).valid = true ∧ frameByte s 2 ≠ 0x12#8
          ∧ t = parseUnknown s (validateCore s (operandN s))) := by
  cases i with
  | crcInit => cases h; simp
  | crcByte b => cases h; simp
  | crcBuf => rcases execCrcBuf_next h with ⟨h1, h2⟩ | ⟨h1, h2⟩ <;> simp [h1, h2]
  | validate => cases h; simp
  | segDecode b => cases h; simp
  | decodePayload => rcases execDecodePayload_next h with ⟨h1, h2⟩ | ⟨h1, h2⟩ <;> simp [h1, h2]
  | parse =>
    rcases execParse_next h with ⟨h1, h2⟩ | ⟨h1, h2, h3⟩ | ⟨h1, h2, h3⟩
    · simp [h1, h2]
    · simp [h1, h2, h3]
    · simp [h1, h2, h3]

/-- What a command word can answer: its command's state, or the illegal word's (60_exceptions.md R242). -/
theorem runCommand_next {w : Word32} {s t : State} (h : runCommand w s = .next t) :
    (∃ i, decode w = .ok i ∧ exec i s = .next t)
      ∨ ((∃ why, decode w = .error why) ∧ t = complete s { err := .illegalCmd }) := by
  unfold runCommand at h
  split at h
  · exact .inl ⟨_, ‹_›, h⟩
  · cases h; exact .inr ⟨⟨_, ‹_›⟩, rfl⟩

/-! The validator and the decoder. -/

theorem validateCore_of_readable {s : State} {n : Nat} (h : lengthReadable n = true) :
    validateCore s n =
      { startOk := startOkOf s
        endOk := endOkOf s n
        lenOk := lenOkOf s n
        crcOk := rxOf s n == calcOf s n
        rxCrc := rxOf s n
        calcCrc := calcOf s n
        valid := startOkOf s && endOkOf s n && lenOkOf s n && (rxOf s n == calcOf s n) } := by
  simp [validateCore, h]

theorem validateCore_of_not_readable {s : State} {n : Nat} (h : lengthReadable n = false) :
    validateCore s n = {} := by
  simp [validateCore, h]

theorem lengthReadable_iff (n : Nat) : lengthReadable n = true ↔ 4 ≤ n ∧ n ≤ 256 := by
  rw [lengthReadable, Bool.and_eq_true, decide_eq_true_eq, decide_eq_true_eq]

/-- What a valid verdict says (41_validator.md R167): all four checks passed on a readable length. -/
theorem validateCore_valid {s : State} {n : Nat} (h : (validateCore s n).valid = true) :
    lengthReadable n = true ∧ startOkOf s = true ∧ endOkOf s n = true ∧ lenOkOf s n = true
      ∧ rxOf s n = calcOf s n := by
  unfold validateCore at h
  split at h
  · simp only [Bool.and_eq_true, beq_iff_eq] at h
    exact ⟨‹_›, h.1.1.1, h.1.1.2, h.1.2, h.2⟩
  · cases h

theorem lenOkOf_iff (s : State) (n : Nat) :
    lenOkOf s n = true ↔ 6 ≤ n ∧ (frameByte s 1).toNat = n - 2 := by
  rw [lenOkOf, Bool.and_eq_true, decide_eq_true_eq, decide_eq_true_eq]

theorem length_segChars (b : Byte) : (segChars b).length = if dpOf b then 2 else 1 := by
  unfold segChars; split <;> rfl

/-- A reading has one or two codes for every payload byte (42_decoder.md R193). -/
theorem length_flatMap_segChars (bs : List Byte) :
    bs.length ≤ (bs.flatMap segChars).length ∧ (bs.flatMap segChars).length ≤ 2 * bs.length := by
  induction bs with
  | nil => simp
  | cons b bs ih =>
    have : (segChars b).length = 1 ∨ (segChars b).length = 2 := by
      rw [length_segChars]; split <;> simp
    simp only [List.flatMap_cons, List.length_append, List.length_cons]
    omega

end Sys2Proof.Machine
end

