-- ==== Sys2Proof/Laws/Step.lean ====
section
/-! SUPPORT. What one step can do, said once. -/

namespace Sys2Proof.Machine

/-- Every state a turn can answer: the host's, the core's with nothing in flight, a completion, a reset. -/
theorem takeTurn_next {turn : Turn} {s t : State} (h : takeTurn turn s = .next t) :
    (turn = .host ∧ t = hostTurn s)
      ∨ (turn = .core ∧ s.inflight = none ∧ t = s)
      ∨ (∃ w, turn = .core ∧ s.inflight = some w ∧ runCommand w s = .next t)
      ∨ (∃ ops, turn = .reset ops ∧ t = resetBlock ops s) := by
  cases turn with
  | host => cases h; simp
  | core =>
    simp only [takeTurn, coreTurn] at h
    split at h
    · exact .inr (.inr (.inl ⟨_, rfl, ‹_›, h⟩))
    · cases h; exact .inr (.inl ⟨rfl, ‹_›, rfl⟩)
  | reset ops => cases h; simp

/-- One step is one turn: the schedule's next, or the default one (00_scope.md R8). -/
theorem step_next {s t : State} (h : step s = .next t) :
    (∃ turn rest, s.turns = turn :: rest ∧ takeTurn turn { s with turns := rest } = .next t)
      ∨ (s.turns = [] ∧ takeTurn (defaultTurn s) s = .next t) := by
  unfold step nextEvent at h
  split at h
  · exact .inl ⟨_, _, ‹_›, h⟩
  · exact .inr ⟨‹_›, h⟩

/-- What the host's turn can do: nothing, or one access answered (20_memory.md R66, R68). -/
theorem hostTurn_cases (s : State) :
    hostTurn s = s
      ∨ ∃ op rest, s.pending = op :: rest ∧ held s (accessOf op) = false ∧
          hostTurn s =
            { (performAccess s (accessOf op)).1 with
              pending := if opFinished s op then rest else op :: rest
              replies := (performAccess s (accessOf op)).2 :: s.replies } := by
  unfold hostTurn
  split
  · exact .inl rfl
  · rename_i op rest hp
    cases hh : held s (accessOf op)
    · exact .inr ⟨op, rest, hp, hh, by simp⟩
    · exact .inl (by simp)

/-- Only indices of `FRAME_BUF` are located there (20_memory.md R61). -/
theorem locate_frame_lt {width : Width} {off : BitVec 10} {i : Nat}
    (h : locate width off = some (.frame i)) : i < 256 := by
  unfold locate at h
  by_cases h1 : off.toNat < regsEnd
  · rw [if_pos h1] at h
    split at h <;> simp at h
  · rw [if_neg h1] at h
    by_cases h2 : off.toNat < frameBase
    · rw [if_pos h2] at h; cases h
    · rw [if_neg h2] at h
      by_cases h3 : width = .w8
      · rw [if_pos h3] at h
        by_cases h4 : off.toNat < outBase
        · rw [if_pos h4] at h
          simp only [Option.some.injEq, Location.frame.injEq] at h
          simp only [outBase, frameBase] at h h4 h2
          omega
        · rw [if_neg h4] at h; simp at h
      · rw [if_neg h3] at h; cases h

/-- What an access can do to the block: nothing, one byte of `FRAME_BUF` (below 256), or one register. -/
theorem performAccess_fst_cases (s : State) (a : Access) :
    (performAccess s a).1 = s
      ∨ (∃ i v, i < 256 ∧ (performAccess s a).1 = setFrameByte s i v)
      ∨ (∃ r v, (performAccess s a).1 = writeReg s v r) := by
  cases a with
  | read width off => left; simp only [performAccess]; split <;> rfl
  | write8 off v =>
    simp only [performAccess]
    split
    · rename_i i hi
      refine .inr (.inl ⟨i, v, ?_, rfl⟩)
      exact locate_frame_lt hi
    · exact .inl rfl
    · exact .inl rfl
    · exact .inl rfl
  | write16 off v => exact .inl rfl
  | write32 off v =>
    simp only [performAccess]
    split
    · exact .inr (.inr ⟨_, _, rfl⟩)
    · exact .inl rfl
    · exact .inl rfl
    · exact .inl rfl

/-- What a register write can do: accept a command, store `FRAME_LEN` or `ARG`, or nothing (R66). -/
theorem writeReg_cases (s : State) (v : Word32) (r : Reg) :
    (r = .cmd ∧ writeReg s v r = acceptCommand v s)
      ∨ (r = .frameLen ∧ writeReg s v r = { s with frameLen := v.extractLsb' 0 9 })
      ∨ (r = .arg ∧ writeReg s v r =
          { s with argStart := v.extractLsb' 0 9, argCount := v.extractLsb' 16 9 })
      ∨ writeReg s v r = s := by
  cases r <;> simp [writeReg]

end Sys2Proof.Machine
end

