-- ==== Sys2Proof/Laws/Bus.lean ====
section
/-! SUPPORT. What each access to a place of the window answers, and what the host's turn and the schedule do
with it: the equations later proofs rewrite with. -/

namespace Sys2Proof.Machine

@[simp] theorem performAccess_read_fst (s : State) (width : Width) (off : BitVec 10) :
    (performAccess s (.read width off)).1 = s := by
  simp only [performAccess]; split <;> rfl

theorem performAccess_of_locate_read {s : State} {width : Width} {off : BitVec 10} {l : Location}
    (h : locate width off = some l) :
    performAccess s (.read width off) = (s, readLocation s l) := by
  simp only [performAccess, h]

theorem performAccess_read_reg (s : State) (r : Reg) :
    performAccess s (.read .w32 (regOffset r)) = (s, .data32 (readReg s r)) :=
  performAccess_of_locate_read (locate_regOffset r)

theorem performAccess_write_reg (s : State) (r : Reg) (v : Word32) :
    performAccess s (.write32 (regOffset r) v) = (writeReg s v r, .ok) := by
  simp only [performAccess, locate_regOffset]

@[simp] theorem performAccess_readStatus (s : State) :
    performAccess s readStatus = (s, .data32 (readReg s .status)) :=
  performAccess_read_reg s .status

@[simp] theorem performAccess_write_cmd (s : State) (w : Word32) :
    performAccess s (.write32 0x000#10 w) = (acceptCommand w s, .ok) :=
  performAccess_write_reg s .cmd w

theorem performAccess_read_frame (s : State) {i : Nat} (hi : i < 256) :
    performAccess s (.read .w8 (BitVec.ofNat 10 (0x100 + i))) = (s, .data8 (frameByte s i)) :=
  performAccess_of_locate_read (locate_frame hi)

theorem performAccess_read_out (s : State) {j : Nat} (hj : j < 512) :
    performAccess s (.read .w8 (BitVec.ofNat 10 (0x200 + j))) = (s, .data8 (outByte s j)) :=
  performAccess_of_locate_read (locate_out hj)

theorem performAccess_write_frame (s : State) {i : Nat} (hi : i < 256) (v : Byte) :
    performAccess s (.write8 (BitVec.ofNat 10 (0x100 + i)) v) = (setFrameByte s i v, .ok) := by
  simp only [performAccess, locate_frame hi]

theorem performAccess_write_out (s : State) {j : Nat} (hj : j < 512) (v : Byte) :
    performAccess s (.write8 (BitVec.ofNat 10 (0x200 + j)) v) = (s, .ok) := by
  simp only [performAccess, locate_out hj]

/-- Which places are located at all (20_memory.md R62, R63, R64). -/
theorem locate_eq_none_iff (width : Width) (off : BitVec 10) :
    locate width off = none ↔
      ¬ ((width = .w32 ∧ off.toNat < 0x02C ∧ off.toNat % 4 = 0) ∨ (width = .w8 ∧ 0x100 ≤ off.toNat)) := by
  have hs : ∀ k, k < 11 → ∃ r, regMap[k]? = some r := by
    intro k hk
    exact ⟨_, List.getElem?_eq_getElem (show k < regMap.length from hk)⟩
  unfold locate
  by_cases h1 : off.toNat < regsEnd
  · rw [if_pos h1]
    simp only [regsEnd] at h1
    by_cases h2 : width = .w32 ∧ off.toNat % 4 = 0
    · rw [if_pos h2]
      obtain ⟨r, hr⟩ := hs (off.toNat / 4) (by omega)
      simp [hr, h1, h2]
    · rw [if_neg h2]
      simp only [true_iff]
      rintro (⟨a, _, c⟩ | ⟨_, b⟩)
      · exact h2 ⟨a, c⟩
      · omega
  · rw [if_neg h1]
    simp only [regsEnd] at h1
    by_cases h2 : off.toNat < frameBase
    · rw [if_pos h2]
      simp only [frameBase] at h2
      simp only [true_iff]
      omega
    · rw [if_neg h2]
      simp only [frameBase] at h2
      by_cases h3 : width = .w8
      · rw [if_pos h3]
        by_cases h4 : off.toNat < outBase
        · rw [if_pos h4]; simp [h3]; omega
        · rw [if_neg h4]; simp [h3]; omega
      · rw [if_neg h3]
        simp only [true_iff]
        rintro (⟨_, b, _⟩ | ⟨a, _⟩)
        · omega
        · exact h3 a

/-- Registers are located for 32-bit accesses only (R62, R63). -/
theorem locate_reg_width {width : Width} {off : BitVec 10} {r : Reg}
    (h : locate width off = some (.reg r)) : width = .w32 := by
  unfold locate at h
  by_cases h1 : off.toNat < regsEnd
  · rw [if_pos h1] at h
    split at h
    · exact (‹width = .w32 ∧ _›).1
    · cases h
  · rw [if_neg h1] at h
    by_cases h2 : off.toNat < frameBase
    · rw [if_pos h2] at h; cases h
    · rw [if_neg h2] at h
      by_cases h3 : width = .w8
      · rw [if_pos h3] at h
        by_cases h4 : off.toNat < outBase
        · rw [if_pos h4] at h; simp at h
        · rw [if_neg h4] at h; simp at h
      · rw [if_neg h3] at h; cases h

/-- A held operation waits with no effect (R68). -/
theorem hostTurn_held {s : State} {op : HostOp} {ops : List HostOp} (hp : s.pending = op :: ops)
    (hh : held s (accessOf op) = true) : hostTurn s = s := by
  simp only [hostTurn, hp, hh, if_true]

/-- An operation that is not held is answered (R66). -/
theorem hostTurn_answered {s : State} {op : HostOp} {ops : List HostOp} (hp : s.pending = op :: ops)
    (hh : held s (accessOf op) = false) :
    hostTurn s =
      { (performAccess s (accessOf op)).1 with
        pending := if opFinished s op then ops else op :: ops
        replies := (performAccess s (accessOf op)).2 :: s.replies } := by
  simp only [hostTurn, hp, hh, Bool.false_eq_true, if_false]

/-- Nothing is held while `BUSY` = 0 (R68). -/
theorem held_of_not_busy {s : State} (h : s.status.busy = false) (a : Access) : held s a = false := by
  simp [held, h]

/-- While `BUSY` = 1 only a 32-bit read of `STATUS` is not held (R68). -/
theorem held_of_busy {s : State} (h : s.status.busy = true) (a : Access) :
    held s a = !decide (a = readStatus) := by
  simp [held, h]

theorem step_of_turns_cons {s : State} {turn : Turn} {rest : List Turn} (h : s.turns = turn :: rest) :
    step s = takeTurn turn { s with turns := rest } := by
  simp only [step, nextEvent, h]

theorem step_of_turns_nil {s : State} (h : s.turns = []) : step s = takeTurn (defaultTurn s) s := by
  simp only [step, nextEvent, h]

@[simp] theorem takeTurn_host (s : State) : takeTurn .host s = .next (hostTurn s) := rfl

@[simp] theorem takeTurn_reset (ops : List HostOp) (s : State) :
    takeTurn (.reset ops) s = .next (resetBlock ops s) := rfl

theorem takeTurn_core {s : State} {w : Word32} (h : s.inflight = some w) :
    takeTurn .core s = runCommand w s := by
  simp only [takeTurn, coreTurn, h]

theorem defaultTurn_of_inflight {s : State} {w : Word32} (h : s.inflight = some w) :
    defaultTurn s = .core := by
  simp only [defaultTurn, h]

theorem defaultTurn_of_idle {s : State} (h : s.inflight = none) : defaultTurn s = .host := by
  simp only [defaultTurn, h]

/-- A legal word runs its command. -/
theorem runCommand_ok {w : Word32} {i : Instr} (h : decode w = .ok i) (s : State) :
    runCommand w s = exec i s := by
  simp only [runCommand, h]

/-- An illegal word raises `ILLEGAL_CMD` (60_exceptions.md R242). -/
theorem runCommand_error {w : Word32} {why : IllegalWord} (h : decode w = .error why) (s : State) :
    runCommand w s = raiseCmdError .illegalCmd s := by
  simp only [runCommand, h]

end Sys2Proof.Machine
end

