-- ==== Sys2Proof/Laws/PerInstr.lean ====
section
/-! SUPPORT. The facts stated per instruction (LAWS.json): every command is well formed, since its one
operand is a byte of any value (30_encoding.md R93). -/

namespace Sys2Proof.Laws

/-- The command is well formed. -/
def IsWellFormed.Statement (i : Instr) : Prop := i.wf = true

theorem IsWellFormed.crcInit : IsWellFormed.Statement .crcInit := by
  unfold IsWellFormed.Statement; decide

theorem IsWellFormed.crcByte (imm8 : Byte) : IsWellFormed.Statement (.crcByte imm8) := by
  simp [IsWellFormed.Statement, Instr.wf, Instr.fields, CmdFields.wf, CmdFields.opcAssigned,
    CmdFields.immAllowed, CmdFields.rsvZero, assignedOpcodes, immOpcodes]

theorem IsWellFormed.crcBuf : IsWellFormed.Statement .crcBuf := by
  unfold IsWellFormed.Statement; decide

theorem IsWellFormed.validate : IsWellFormed.Statement .validate := by
  unfold IsWellFormed.Statement; decide

theorem IsWellFormed.segDecode (imm8 : Byte) : IsWellFormed.Statement (.segDecode imm8) := by
  simp [IsWellFormed.Statement, Instr.wf, Instr.fields, CmdFields.wf, CmdFields.opcAssigned,
    CmdFields.immAllowed, CmdFields.rsvZero, assignedOpcodes, immOpcodes]

theorem IsWellFormed.decodePayload : IsWellFormed.Statement .decodePayload := by
  unfold IsWellFormed.Statement; decide

theorem IsWellFormed.parse : IsWellFormed.Statement .parse := by
  unfold IsWellFormed.Statement; decide

end Sys2Proof.Laws
end

