-- ==== Sys2Proof/Tests/Slice0.lean ====
section
/-! SUPPORT. Tests: the checks of WellFormed on ill-formed words, decoding of words written out from the spec,
one-step tests with expected values from 95_test_vectors.md and the rules' examples, and a witness for the
hypotheses of every statement. -/

namespace Sys2Proof.Tests

open Sys2Proof Sys2Proof.Machine

/-! ## Helpers -/

/-- A field of the state an outcome answers. -/
def after {α : Type} (o : StepOutcome) (f : State → α) : Option α :=
  match o with
  | .next t => some (f t)
  | .fault _ => none
  | .refused _ => none

/-- Cells for bytes at consecutive indices. -/
def cellsFrom : Nat → List Byte → Memory
  | _, [] => []
  | i, b :: bs => (i, b) :: cellsFrom (i + 1) bs

/-- The reset state with a frame loaded, as `load.frame` leaves it (30_encoding.md R121). -/
def loaded (bs : List Byte) : State :=
  { State.reset with frameBuf := cellsFrom 0 bs, frameLen := BitVec.ofNat 9 bs.length }

/-- The reset state with `ARG` set. -/
def ranged (start count : BitVec 9) (s : State := State.reset) : State :=
  { s with argStart := start, argCount := count }

/-- A state with a command in flight (30_encoding.md R98). -/
def busyWith (w : Word32) : State := acceptCommand w State.reset

/-- Frame F-E2E (95_test_vectors.md). -/
def frameE2E : List Byte := [0x9B#8, 0x05#8, 0x12#8, 0x3F#8, 0x71#8, 0x2D#8, 0x9D#8]

/-- Frame F-UNK. -/
def frameUnk : List Byte := [0x9B#8, 0x05#8, 0x99#8, 0x3F#8, 0x81#8, 0x4B#8, 0x9D#8]

/-- Frame F-EMPTY. -/
def frameEmpty : List Byte := [0x9B#8, 0x04#8, 0x12#8, 0x7D#8, 0x83#8, 0x9D#8]

/-- Frame F-725. -/
def frame725 : List Byte :=
  [0x9B#8, 0x07#8, 0x12#8, 0x07#8, 0xDB#8, 0x6D#8, 0x64#8, 0xBE#8, 0x9D#8]

/-- Frame F-E2E-PRINTED. -/
def framePrinted : List Byte := [0x9B#8, 0x06#8, 0x12#8, 0x3F#8, 0x71#8, 0xDD#8, 0x9D#8]

/-! ## WellFormed: an ill-formed word for each check (30_encoding.md R92) -/

theorem test_wf_refuses_unassigned_opcode : CmdFields.opcAssigned ⟨0x04#8, 0#8, 0#16⟩ = false := by decide

theorem test_wf_refuses_unused_imm : CmdFields.immAllowed ⟨0x10#8, 0x01#8, 0#16⟩ = false := by decide

theorem test_wf_refuses_reserved_bits : CmdFields.rsvZero ⟨0x02#8, 0#8, 0x00FF#16⟩ = false := by decide

theorem test_wf_refuses_each :
    CmdFields.wf ⟨0x04#8, 0#8, 0#16⟩ = false ∧ CmdFields.wf ⟨0x10#8, 0x01#8, 0#16⟩ = false
      ∧ CmdFields.wf ⟨0x02#8, 0#8, 0x00FF#16⟩ = false := by decide

theorem test_wf_accepts : (Instr.crcByte 0xFF#8).wf = true ∧ Instr.parse.wf = true := by decide

/-! ## Decoding: every command's word bit by bit from R91's encoding column -/

theorem test_decode_crcInit :
    decode 0b00000000000000000000000000000001#32 = .ok .crcInit := by decide

theorem test_decode_crcByte :
    decode 0b00000000000000001010010100000010#32 = .ok (.crcByte 0xA5#8) := by decide

theorem test_decode_crcBuf :
    decode 0b00000000000000000000000000000011#32 = .ok .crcBuf := by decide

theorem test_decode_validate :
    decode 0b00000000000000000000000000010000#32 = .ok .validate := by decide

theorem test_decode_segDecode :
    decode 0b00000000000000001101101100100000#32 = .ok (.segDecode 0xDB#8) := by decide

theorem test_decode_decodePayload :
    decode 0b00000000000000000000000000100001#32 = .ok .decodePayload := by decide

theorem test_decode_parse :
    decode 0b00000000000000000000000000110000#32 = .ok .parse := by decide

/-- 95_test_vectors.md section 5.1. -/
theorem test_decode_illegal :
    decode 0x00000000#32 = .error .unassignedOpcode ∧ decode 0x00000031#32 = .error .unassignedOpcode
      ∧ decode 0x00010001#32 = .error .reservedNotZero ∧ decode 0x80000020#32 = .error .reservedNotZero
      ∧ decode 0x00000103#32 = .error .unusedImmNotZero
      ∧ decode 0x00000130#32 = .error .unusedImmNotZero := by decide

theorem test_decodeTableWord :
    decodeTableWord 32 0x00003102 = some (.crcByte 0x31#8) ∧ decodeTableWord 32 0x00010001 = none
      ∧ decodeTableWord 40 0x00000001 = none := by decide

/-! ## One step of every command (95_test_vectors.md) -/

/-- E1, 40_crc.md R132. -/
theorem test_crc16_check_value :
    crc16 [0x31#8, 0x32#8, 0x33#8, 0x34#8, 0x35#8, 0x36#8, 0x37#8, 0x38#8, 0x39#8] = 0x4B37#16 := by
  decide +kernel

/-- Section 2.1. -/
theorem test_crc16Step :
    crc16Step 0xFFFF#16 0x80#8 = 0xE0BE#16 ∧ crc16Step 0x0000#16 0x01#8 = 0xC0C1#16 := by decide

theorem test_crcInit :
    after (exec .crcInit { State.reset with crc := 0x4B37#16 }) (fun t => (t.crc, readReg t .status))
      = some (0xFFFF#16, 0x002#32) := by decide

theorem test_crcByte :
    after (step (State.reset.withFetchWord 32 0x00003102)) (fun t => (readReg t .crc, readReg t .status))
      = some (0x0000947E#32, 0x002#32) := by decide

/-- Section 2.3: F-725 loaded, `S = 1`, `C = 5`. -/
theorem test_crcBuf :
    after (exec .crcBuf (ranged 1#9 5#9 (loaded frame725))) (fun t => readReg t .crc)
      = some 0x000064BE#32 := by decide +kernel

/-- Section 5.2: `S = C = 511`, no 9-bit wrap. -/
theorem test_crcBuf_range :
    after (exec .crcBuf { ranged 511#9 511#9 with crc := 0x1234#16 })
        (fun t => (readReg t .status, t.crc)) = some (0x2002#32, 0x1234#16) := by decide

theorem test_validate :
    after (exec .validate (loaded frameE2E))
        (fun t => (readReg t .status, readReg t .rxCrc, readReg t .calcCrc))
      = some (0x07E#32, 0x712D#32, 0x712D#32) := by decide +kernel

/-- Section 3: `9B 02 81 3E 9D`, `N = 5`: markers and CRC good, `LEN_OK` = 0. -/
theorem test_validate_short :
    after (exec .validate (loaded [0x9B#8, 0x02#8, 0x81#8, 0x3E#8, 0x9D#8]))
        (fun t => readReg t .status) = some 0x05A#32 := by decide

/-- E6. -/
theorem test_segDecode :
    after (exec (.segDecode 0xDB#8) State.reset) (fun t => (readReg t .segOut, readReg t .status))
      = some (0x132#32, 0x002#32) := by decide

theorem test_segDecode_unrecognised :
    after (exec (.segDecode 0x80#8) State.reset) (fun t => (readReg t .segOut, readReg t .status))
      = some (0x33F#32, 0x402#32) := by decide

/-- Section 4.2: "72.5". -/
theorem test_decodePayload :
    after (exec .decodePayload (ranged 3#9 3#9 (loaded frame725)))
        (fun t => (readReg t .outLen, (List.range 4).map (outByte t), readReg t .status))
      = some (0x004#32, [0x37#8, 0x32#8, 0x2E#8, 0x35#8], 0x002#32) := by decide

theorem test_decodePayload_empty :
    after (exec .decodePayload (ranged 256#9 0#9)) (fun t => (readReg t .outLen, readReg t .status))
      = some (0x000#32, 0x202#32) := by decide

/-- E3, corrected. -/
theorem test_parse_height :
    after (exec .parse (loaded frameE2E))
        (fun t => (readReg t .status, outByte t 0, readReg t .outLen, readReg t .msgType,
          readReg t .payLen))
      = some (0x0FE#32, 0x30#8, 0x001#32, 0x12#32, 0x01#32) := by decide +kernel

/-- E4, corrected. -/
theorem test_parse_unknown :
    after (exec .parse (loaded frameUnk)) (fun t => (readReg t .status, readReg t .msgType, readReg t .outLen))
      = some (0x17A#32, 0x99#32, 0x000#32) := by decide +kernel

/-! ## The bus and the life of a command (section 6) -/

theorem test_illegal_word :
    after (step (State.reset.withFetchWord 32 0x00000130)) (fun t => readReg t .status)
      = some 0x1002#32 := by decide

theorem test_arg_write_truncates :
    readReg (performAccess State.reset (.write32 0x00C#10 0xFFFFFFFF#32)).1 .arg = 0x01FF01FF#32 := by
  decide

theorem test_bus_errors :
    (performAccess State.reset (.read .w8 0x004#10)).2 = .busError
      ∧ (performAccess State.reset (.write16 0x008#10 1#16)).2 = .busError
      ∧ (performAccess State.reset (.read .w32 0x006#10)).2 = .busError
      ∧ (performAccess State.reset (.write32 0x100#10 1#32)).2 = .busError
      ∧ (performAccess State.reset (.read .w32 0x0FC#10)).2 = .busError
      ∧ (performAccess State.reset (.read .w32 0x028#10)).2 = .data32 0#32 := by decide

theorem test_held_write_waits :
    hostTurn { busyWith 0x10#32 with pending := [wr8Frame 0 0x41#8] }
      = { busyWith 0x10#32 with pending := [wr8Frame 0 0x41#8] } := by decide

theorem test_reset_aborts :
    after (step { busyWith 0x00003102#32 with turns := [.reset []] })
        (fun t => (t.inflight, readReg t .crc, readReg t .status))
      = some (none, 0x0000FFFF#32, 0#32) := by decide

theorem test_idle_step : after (step State.reset) id = some State.reset := by decide

/-! ## Witnesses: concrete states that meet the hypotheses of the statements -/

theorem witness_DecodeOfEncodeIsIdentity : (Instr.segDecode 0xFF#8).wf = true := by decide

theorem witness_EncodeOfDecodeIsIdentity : decode 0x0000FF02#32 = .ok (.crcByte 0xFF#8) := by decide

theorem witness_IllegalWordsRaiseIllegalCmd : ∃ why, decode 0x00000011#32 = .error why :=
  ⟨.unassignedOpcode, by decide⟩

/-- The hypotheses of `IllegalFormsOf`, for each of the seven commands. -/
theorem witness_IllegalFormsOf :
    (opcField 0x00000101#32 = 0x01#8 ∧ immField 0x00000101#32 ≠ 0#8)
      ∧ (opcField 0x00FF0002#32 = 0x02#8 ∧ rsvField 0x00FF0002#32 ≠ 0#16)
      ∧ (opcField 0x00000103#32 = 0x03#8 ∧ immField 0x00000103#32 ≠ 0#8)
      ∧ (opcField 0x00010010#32 = 0x10#8 ∧ rsvField 0x00010010#32 ≠ 0#16)
      ∧ (opcField 0x80000020#32 = 0x20#8 ∧ rsvField 0x80000020#32 ≠ 0#16)
      ∧ (opcField 0x00000121#32 = 0x21#8 ∧ immField 0x00000121#32 ≠ 0#8)
      ∧ (opcField 0x00000130#32 = 0x30#8 ∧ immField 0x00000130#32 ≠ 0#8) := by decide

theorem witness_CrcStepKeepsDifferences : (0x0001#16 ≠ 0x0000#16) ∧ (0x80#8 ≠ 0x00#8) := by decide

/-- Ranges that just fit, for StreamingAgreesWithBlock, CrcContinuationHazard, CrcBufCommand and
DecodePayloadCommand. -/
theorem witness_range_fits :
    (ranged 255#9 1#9).argStart.toNat + (ranged 255#9 1#9).argCount.toNat ≤ 256
      ∧ (ranged 256#9 0#9).argStart.toNat + (ranged 256#9 0#9).argCount.toNat ≤ 256
      ∧ (ranged 0#9 256#9).argStart.toNat + (ranged 0#9 256#9).argCount.toNat ≤ 256 := by decide

/-- Ranges that just do not fit, for CrcBufCommand, DecodePayloadCommand and RangeErrorReadsNoFrameByte. -/
theorem witness_range_exceeds :
    256 < (ranged 255#9 2#9).argStart.toNat + (ranged 255#9 2#9).argCount.toNat
      ∧ 256 < (ranged 257#9 0#9).argStart.toNat + (ranged 257#9 0#9).argCount.toNat
      ∧ 256 < (ranged 511#9 511#9).argStart.toNat + (ranged 511#9 511#9).argCount.toNat := by decide

theorem witness_StreamingAgreesWithBlock :
    bytesAt (ranged 3#9 1#9 (loaded frameE2E)) 3 1 = [0x3F#8] := by decide

theorem witness_CrcContinuationHazard :
    (∃ t, execAll (.crcInit :: [0x31#8].map .crcByte) State.reset = .next t)
      ∧ (∃ t, exec .validate (loaded frameE2E) = .next t) := ⟨⟨_, rfl⟩, ⟨_, rfl⟩⟩

theorem witness_length_domain : (3 < 4 ∨ 256 < 3) ∧ (257 < 4 ∨ 256 < 257) ∧ (4 ≤ 4 ∧ 4 ≤ 256)
    ∧ (4 ≤ 256 ∧ 256 ≤ 256) := by decide

theorem witness_VerdictInsideLengthDomain : (validateCore (loaded frameEmpty) 6).lenOk = true := by decide

theorem witness_ValidationIsPureGate :
    (validateCore (loaded (0x9A#8 :: frameE2E.tail)) 7).startOk = false
      ∧ (validateCore (loaded (frameE2E.dropLast ++ [0x9C#8])) 7).endOk = false
      ∧ ∀ i, i < 7 → frameByte (loaded (frameE2E ++ [0xAA#8])) i = frameByte (loaded frameE2E) i := by
  decide

/-- Frames of messages: a Height one, an unknown one and an empty one (for ValidateAcceptsExactlyTheFrames,
ParseReadsBackBuiltFrames and EmptyHeightPayloadIsSuccess). -/
theorem witness_HoldsMessage :
    HoldsMessage 0x12#8 [0x3F#8] (loaded frameE2E) ∧ HoldsMessage 0x99#8 [0x3F#8] (loaded frameUnk)
      ∧ HoldsMessage 0x12#8 [] (loaded frameEmpty) := by
  unfold HoldsMessage FrameHolds; decide +kernel

/-- SingleBitFlipIsRejected at every boundary of its clauses: `k` = 0, 1, N-4, N-3, N-2, N-1, `b` = 7. -/
theorem witness_SingleBitFlipIsRejected :
    after (exec .validate (loaded frameE2E)) (fun t => t.status.results.result) = some true
      ∧ (loaded frameE2E).frameLen.toNat = 7
      ∧ [0, 1, 3, 4, 5, 6].all (fun k =>
          after (exec .validate (flipFrameBit k 7 (loaded frameE2E)))
            (fun t => t.status.results.result) == some false) = true := by decide +kernel

theorem witness_VerdictAgainstReference :
    6 ≤ 7 ∧ 7 ≤ 256 ∧ (frameByte (loaded frameE2E) 1).toNat = 7 - 2
      ∧ ¬ ((frameByte (loaded framePrinted) 1).toNat = 7 - 2) := by decide

/-- The three cases of ParseCommand; the second and third also for UnknownTypeIsFailure. -/
theorem witness_ParseCommand :
    (validateCore (loaded framePrinted) 7).valid = false
      ∧ ((validateCore (loaded frameE2E) 7).valid = true ∧ frameByte (loaded frameE2E) 2 = 0x12#8)
      ∧ ((validateCore (loaded frameUnk) 7).valid = true ∧ frameByte (loaded frameUnk) 2 ≠ 0x12#8) := by
  decide +kernel

/-- A byte of `OUT_BUF` that PARSE changes (ParseSingleGate, OutBufWrittenBelowOutLenOnly,
CommandsNeverReadOutBuf). -/
theorem witness_parse_writes_outBuf :
    after (exec .parse { loaded frameE2E with outBuf := [(0, 0xAA#8)] })
        (fun t => decide (outByte t 0 ≠ 0xAA#8)) = some true
      ∧ outByte { loaded frameE2E with outBuf := [(0, 0xAA#8)] } 0 = 0xAA#8 := by decide +kernel

theorem witness_UndecodedParseShowsNoReading :
    after (exec .parse (loaded frameUnk)) (fun t => t.status.results.height) = some false := by decide +kernel

theorem witness_BytesPastTheFrameAreNotRead :
    ∀ k, k < (loaded frameE2E).frameLen.toNat →
      frameByte { loaded frameE2E with frameBuf := cellsFrom 0 (frameE2E ++ [0x55#8]) } k
        = frameByte (loaded frameE2E) k := by decide

theorem witness_ErrorsArePrecise :
    after (runCommand 0#32 State.reset) (fun t => t.status.results.err) = some .illegalCmd
      ∧ after (runCommand 0x21#32 (ranged 511#9 511#9)) (fun t => t.status.results.err) = some .range := by
  decide

/-- One command for each register of EachRegisterHasItsWriters that it changes; also the hypothesis of
CommandsNeverWriteTheirInputs and StatusNeverMixesCommands. -/
theorem witness_EachRegisterHasItsWriters :
    after (runCommand 0x00003102#32 State.reset) (fun t => decide (t.crc ≠ State.reset.crc)) = some true
      ∧ after (runCommand 0x30#32 (loaded frameE2E))
          (fun t => decide (t.rxCrc ≠ 0#16 ∧ t.calcCrc ≠ 0#16 ∧ t.msgType ≠ 0#8 ∧ t.payLen ≠ 0#8
            ∧ t.outLen ≠ 0#10 ∧ t.status.results.result = true)) = some true
      ∧ after (runCommand 0x00003F20#32 State.reset) (fun t => decide (t.segOut ≠ {})) = some true := by
  decide +kernel

/-- The invariant holds of a state with a command in flight, its buffers written, an access waiting and turns
scheduled: the hypotheses of InvariantKeptByEveryStep, OneCommandAtATime, OperandsAreStableInFlight,
EveryCommandEnds and HoldRule's second part. -/
def busyLoaded : State :=
  { loaded frameE2E with
    inflight := some 0x30#32, status := { busy := true },
    pending := [.access readStatus], turns := [.host, .core] }

theorem witness_invariant_in_flight : busyLoaded.Inv := by
  constructor <;> decide

theorem witness_step_in_flight :
    after (step busyLoaded) (fun t => (t.inflight, t.replies)) = some (some 0x30#32, [.data32 1#32]) := by
  decide

theorem witness_StepRunsTheDecodedCommand :
    busyLoaded.inflight = some 0x30#32 ∧ decode 0x30#32 = .ok .parse
      ∧ (∃ why, decode 0x31#32 = .error why) ∧ busyLoaded.turns.tail = [.core]
      ∧ (busyWith 0x31#32).turns = [] :=
  ⟨rfl, by decide, ⟨.unassignedOpcode, by decide⟩, rfl, rfl⟩

theorem witness_BusErrorChangesNothing :
    (performAccess State.reset (.read .w32 0x02C#10)).2 = .busError
      ∧ held State.reset (.read .w32 0x02C#10) = false := by decide

/-- The windows of BusErrorsExactly's two legal ranges at their ends, and the places next to them. -/
theorem witness_BusErrorsExactly :
    [(Width.w32, 0x000), (.w32, 0x028), (.w8, 0x100), (.w8, 0x3FF)].all (fun p =>
        (performAccess State.reset (.read p.1 (BitVec.ofNat 10 p.2))).2 != .busError)
      = true ∧
    [(Width.w32, 0x02C), (.w8, 0x0FF), (.w32, 0x029), (.w32, 0x100), (.w8, 0x028)].all (fun p =>
        (performAccess State.reset (.read p.1 (BitVec.ofNat 10 p.2))).2 == .busError) = true := by
  decide +kernel

/-- HostStepPerformsItsAccess: an idle block by the schedule and by default, a `STATUS` read while `BUSY` = 1,
and a `wait` that goes on and one that does not. -/
theorem witness_HostStepPerformsItsAccess :
    State.reset.status.busy = false ∧ State.reset.turns = [] ∧ State.reset.inflight = none
      ∧ busyLoaded.turns = .host :: [.core] ∧ busyLoaded.pending = .access readStatus :: []
      ∧ accessOf (.access readStatus) = .read .w32 0x004#10 ∧ busyLoaded.status.busy = true
      ∧ State.reset.status.done = false ∧ (complete State.reset {}).status.done = true := by decide

/-- A scheduled write of `FRAME_BUF` lands in the step, and the host goes on (20_memory.md R66). -/
theorem test_host_step_writes_frame :
    after (step { State.reset with pending := [wr8Frame 255 0x9D#8, rd8Frame 255], turns := [.host] })
        (fun t => (frameByte t 255, t.replies, t.pending.length)) = some (0x9D#8, [.ok], 1) := by
  decide

/-- A write of `FRAME_LEN` held behind a completion keeps its effect after it (20_memory.md R68). -/
theorem test_held_write_lands_after_completion :
    after (runCommand 0x01#32 { busyWith 0x01#32 with pending := [wr32 .frameLen 0xFFFFFE07#32] })
        (fun t => (readReg (hostTurn t) .frameLen, (hostTurn t).pending)) = some (0x007#32, []) := by
  decide

/-- HoldRule, third part: a write waits while a command runs to its end. -/
theorem witness_HoldRule_completion :
    { busyWith 0x01#32 with pending := [wr8Frame 0 0x9B#8] }.pending = wr8Frame 0 0x9B#8 :: []
      ∧ after (runCommand 0x01#32 { busyWith 0x01#32 with pending := [wr8Frame 0 0x9B#8] })
          (fun t => t.pending) = some [wr8Frame 0 0x9B#8] := by decide

/-- HoldRule, first part, and AcceptanceOfCommands while busy: a `CMD` write waits. -/
theorem witness_HoldRule :
    (busyWith 0x30#32).status.busy = true
      ∧ accessOf (issueCommand .crcInit) ≠ .read .w32 0x004#10
      ∧ (issueCommand .crcInit) = .access (.write32 0x000#10 0x00000001#32) := by decide

theorem witness_AcceptanceOfCommands :
    State.reset.status.busy = false ∧ (busyWith 0x10#32).inflight = some 0x10#32 := by decide

theorem witness_ReadsAndStoresAreIdempotent :
    isRead readStatus = true ∧ ∀ w, Access.write32 0x008#10 7#32 ≠ .write32 0x000#10 w := by
  refine ⟨by decide, fun w h => ?_⟩
  injection h with h1
  exact absurd h1 (by decide)

/-- CompletionOfCommands and EveryCommandEnds. -/
theorem witness_CompletionOfCommands :
    (busyWith 0x01#32).inflight = some 0x01#32 ∧ (busyWith 0x01#32).turns = []
      ∧ { busyWith 0x01#32 with turns := [.core, .host] }.turns = .core :: [.host] := by decide

theorem witness_ResetFromAnyState :
    { busyLoaded with turns := [.reset [.wait]] }.turns = .reset [.wait] :: []
      ∧ { busyLoaded with turns := [.reset [.wait]] }.status.busy = true := by decide

theorem witness_ReservedBitsReadZero : Reg.frameLen ≠ .cmd ∧ readOnly .crc := by
  unfold readOnly; decide

/-- A bus of 12 address bits with the window at `0x400`, its two ends, and the addresses next to them. -/
def bus12 : Config.Bus := ⟨12, 0x400#12, by decide, by decide⟩

theorem witness_WindowIsDecodedExactly :
    windowOffset bus12 0x400#12 = some 0x000#10 ∧ windowOffset bus12 0x7FF#12 = some 0x3FF#10
      ∧ windowOffset bus12 0x3FF#12 = none ∧ windowOffset bus12 0x800#12 = none
      ∧ ¬ (bus12.base.toNat ≤ (0x800#12).toNat ∧ (0x800#12).toNat < bus12.base.toNat + 1024) := by
  decide

theorem witness_WaitPollsUntilDone :
    (complete State.reset {}).status.done = true ∧ (busyWith 0x01#32).status.done = false
      ∧ accessOf .wait = readStatus := by decide

end Sys2Proof.Tests
end

section
/-! PROOFS. The results a completion may write and the fields it leaves, as two predicates that together make
the invariant of an idle block; each command's state meets both. -/

namespace Sys2Proof.Machine

/-- The clauses of `State.Inv` about the result fields of `STATUS` alone. -/
structure Results.Legal (r : Results) : Prop where
  err_alone : r.err ≠ .none → r = { err := r.err }
  result_checked : r.result = true →
    r.startOk = true ∧ r.endOk = true ∧ r.lenOk = true ∧ r.crcOk = true ∧ r.unknownType = false
  height_result : r.height = true → r.result = true
  unknown_checked : r.unknownType = true →
    r.startOk = true ∧ r.endOk = true ∧ r.lenOk = true ∧ r.crcOk = true ∧ r.result = false
      ∧ r.height = false

/-- The clauses of `State.Inv` about the buffers and the data registers. -/
structure State.DataInv (s : State) : Prop where
  frameBuf_wf : Memory.wf Config.frameBufBytes s.frameBuf = true
  outBuf_wf : Memory.wf Config.outBufBytes s.outBuf = true
  outLen_le : s.outLen.toNat ≤ Config.outBufBytes
  payLen_le : s.payLen.toNat ≤ 250
  segOut_legal : s.segOut = {}
    ∨ (0x30 ≤ s.segOut.char.toNat ∧ s.segOut.char.toNat ≤ 0x39 ∧ s.segOut.unrec = false)
    ∨ (s.segOut.char = questionMark ∧ s.segOut.unrec = true)

theorem State.Inv.dataInv {s : State} (h : s.Inv) : s.DataInv := { h with }

/-- A completion meets the invariant when its results are legal and the data it leaves is. -/
theorem inv_complete {s : State} {r : Results} (hd : s.DataInv) (hr : r.Legal) : (complete s r).Inv :=
  { hd, hr with
    busy_eq_inflight := rfl
    busy_not_done := fun h => nomatch h
    results_need_done := fun h => nomatch h }

/-- An acceptance meets the invariant whatever `STATUS` was (10_state.md R24). -/
theorem inv_acceptCommand {s : State} (w : Word32) (hd : s.DataInv) : (acceptCommand w s).Inv :=
  { hd with
    busy_eq_inflight := rfl
    busy_not_done := fun _ => rfl
    results_need_done := fun _ => rfl
    err_alone := fun h => absurd rfl h
    result_checked := fun h => nomatch h
    height_result := fun h => nomatch h
    unknown_checked := fun h => nomatch h }

theorem inv_reset : State.reset.Inv := by constructor <;> decide

/-! The results the commands write. -/

theorem Results.Legal.of_error (code : ErrCode) : Results.Legal { err := code } where
  err_alone _ := rfl
  result_checked h := nomatch h
  height_result h := nomatch h
  unknown_checked h := nomatch h

/-- Diagnostics alone are legal: no error, and nothing that a check has to back. -/
theorem Results.Legal.of_diagnostics (empty unrec : Bool) :
    Results.Legal { emptyPayload := empty, unrecSeen := unrec } where
  err_alone h := absurd rfl h
  result_checked h := nomatch h
  height_result h := nomatch h
  unknown_checked h := nomatch h

/-- A valid verdict has all four of its checks passed (41_validator.md R167). -/
theorem validateCore_checks {s : State} {n : Nat} (h : (validateCore s n).valid = true) :
    (validateCore s n).startOk = true ∧ (validateCore s n).endOk = true
      ∧ (validateCore s n).lenOk = true ∧ (validateCore s n).crcOk = true := by
  obtain ⟨hn, hs, he, hl, hc⟩ := validateCore_valid h
  simp [validateCore_of_readable hn, hs, he, hl, hc]

theorem checkResults_legal (v : Verdict) : (checkResults v).Legal where
  err_alone h := absurd rfl h
  result_checked h := nomatch h
  height_result h := nomatch h
  unknown_checked h := nomatch h

theorem validateResults_legal (s : State) (n : Nat) :
    Results.Legal { checkResults (validateCore s n) with result := (validateCore s n).valid } where
  err_alone h := absurd rfl h
  result_checked h := by
    obtain ⟨hs, he, hl, hc⟩ := validateCore_checks h
    exact ⟨hs, he, hl, hc, rfl⟩
  height_result h := nomatch h
  unknown_checked h := nomatch h

theorem heightResults_legal {s : State} {n : Nat} (hv : (validateCore s n).valid = true)
    (empty unrec : Bool) :
    Results.Legal { checkResults (validateCore s n) with
      result := true, height := true, emptyPayload := empty, unrecSeen := unrec } where
  err_alone h := absurd rfl h
  result_checked _ := by
    obtain ⟨hs, he, hl, hc⟩ := validateCore_checks hv
    exact ⟨hs, he, hl, hc, rfl⟩
  height_result _ := rfl
  unknown_checked h := nomatch h

theorem unknownResults_legal {s : State} {n : Nat} (hv : (validateCore s n).valid = true) :
    Results.Legal { checkResults (validateCore s n) with unknownType := true } where
  err_alone h := absurd rfl h
  result_checked h := nomatch h
  height_result h := nomatch h
  unknown_checked _ := by
    obtain ⟨hs, he, hl, hc⟩ := validateCore_checks hv
    exact ⟨hs, he, hl, hc, rfl, rfl⟩

/-! The data the commands write. -/

/-- A reading of at most 256 bytes fits into `OUT_BUF` (42_decoder.md R193, 10_state.md R36). -/
theorem dataInv_writeReading {s : State} {bs : List Byte} (hd : s.DataInv) (hb : bs.length ≤ 256) :
    (writeReading s (readingOf bs).codes).DataInv := by
  have hl : (readingOf bs).codes.length ≤ 512 := by
    have := (length_flatMap_segChars bs).2
    simp only [readingOf]; omega
  exact { hd with
    outBuf_wf := Memory.wf_setList _ _ _ (by simpa using hl) hd.outBuf_wf
    outLen_le := by
      rw [writeReading_outLen, BitVec.toNat_ofNat, Nat.mod_eq_of_lt (by omega)]; exact hl }

/-- A range that fits holds at most the buffer's 256 bytes (60_exceptions.md R243). -/
theorem length_rangeBytes_le {s : State} (h : rangeError s = false) : (rangeBytes s).length ≤ 256 := by
  have : ¬ 256 < s.argStart.toNat + s.argCount.toNat := by rw [← rangeError_iff, h]; exact Bool.false_ne_true
  rw [rangeBytes, length_frameBytes, operandC]; omega

/-- The payload of a valid frame is at most 250 bytes (30_encoding.md R114). -/
theorem payloadLength_le {s : State} {n : Nat} (h : (validateCore s n).valid = true) :
    (payloadLength s).toNat ≤ 250 := by
  obtain ⟨hn, -, -, hl, -⟩ := validateCore_valid h
  rw [lengthReadable_iff] at hn
  rw [lenOkOf_iff] at hl
  have h4 : (4#8).toNat = 4 := rfl
  have hle : 4#8 ≤ frameByte s 1 := by rw [BitVec.le_def]; omega
  have hp : (payloadLength s).toNat = (frameByte s 1).toNat - 4 := by
    rw [payloadLength, BitVec.toNat_sub_of_le hle, h4]
  omega

/-- The look-up table's codes are the ten digits', and `'?'` stands for every other pattern (R190). -/
theorem segLut_legal (p : BitVec 7) :
    (0x30 ≤ (segLut p).toNat ∧ (segLut p).toNat ≤ 0x39 ∧ recognised p = true)
      ∨ (segLut p = questionMark ∧ recognised p = false) := by
  unfold segLut recognised
  cases h : segTable.lookup p with
  | none => exact .inr ⟨rfl, rfl⟩
  | some c =>
    obtain ⟨pre, post, heq, -⟩ := List.lookup_eq_some_iff.mp h
    have hdigits : ∀ e ∈ segTable, 0x30 ≤ e.2.toNat ∧ e.2.toNat ≤ 0x39 := by simp [segTable]
    obtain ⟨hlo, hhi⟩ := hdigits (p, c) (by simp [heq])
    exact .inl ⟨hlo, hhi, rfl⟩

theorem dataInv_setSegOut {s : State} (hd : s.DataInv) (b : Byte) :
    State.DataInv { s with segOut := ⟨segLut (patternOf b), dpOf b, segUnrec b⟩ } :=
  { hd with
    segOut_legal := by
      obtain ⟨hlo, hhi, hr⟩ | ⟨hq, hr⟩ := segLut_legal (patternOf b)
      · exact .inr (.inl ⟨hlo, hhi, by simp [segUnrec, hr]⟩)
      · exact .inr (.inr ⟨hq, by simp [segUnrec, hr]⟩) }

/-- What PARSE writes of a valid frame before it decodes (42_decoder.md R205). -/
theorem dataInv_setMessage {s : State} {n : Nat} (hd : s.DataInv) (hv : (validateCore s n).valid = true) :
    State.DataInv { writeCrcs s (validateCore s n) with
      msgType := messageType s, payLen := payloadLength s } :=
  { hd with payLen_le := payloadLength_le hv }

/-! Every step keeps the invariant. -/

theorem inv_parseRejected {s : State} (hd : s.DataInv) (v : Verdict) : (parseRejected s v).Inv :=
  inv_complete { hd with outLen_le := Nat.zero_le _, payLen_le := Nat.zero_le _ } (checkResults_legal v)

theorem inv_parseHeight {s : State} {n : Nat} (hd : s.DataInv) (hv : (validateCore s n).valid = true) :
    (parseHeight s (validateCore s n)).Inv := by
  have hp : (frameBytes s 3 (payloadLength s).toNat).length ≤ 256 := by
    rw [length_frameBytes]; have := payloadLength_le hv; omega
  exact inv_complete (dataInv_writeReading (dataInv_setMessage hd hv) hp) (heightResults_legal hv _ _)

theorem inv_parseUnknown {s : State} {n : Nat} (hd : s.DataInv) (hv : (validateCore s n).valid = true) :
    (parseUnknown s (validateCore s n)).Inv :=
  inv_complete { dataInv_setMessage hd hv with outLen_le := Nat.zero_le _ } (unknownResults_legal hv)

theorem inv_exec {i : Instr} {s t : State} (hd : s.DataInv) (h : exec i s = .next t) : t.Inv := by
  rcases exec_next h with ⟨-, rfl⟩ | ⟨_, -, rfl⟩ | ⟨-, -, rfl⟩ | ⟨-, -, rfl⟩ | ⟨-, rfl⟩ | ⟨b, -, rfl⟩
    | ⟨-, hr, rfl⟩ | ⟨-, -, rfl⟩ | ⟨-, hv, -, rfl⟩ | ⟨-, hv, -, rfl⟩
  · exact inv_complete { hd with } (.of_error .none)
  · exact inv_complete { hd with } (.of_error .none)
  · exact inv_complete hd (.of_error .range)
  · exact inv_complete { hd with } (.of_error .none)
  · exact inv_complete { hd with } (validateResults_legal s _)
  · exact inv_complete (dataInv_setSegOut hd b) (.of_diagnostics false _)
  · exact inv_complete (dataInv_writeReading hd (length_rangeBytes_le hr)) (.of_diagnostics _ _)
  · exact inv_parseRejected hd _
  · exact inv_parseHeight hd hv
  · exact inv_parseUnknown hd hv

theorem inv_runCommand {w : Word32} {s t : State} (hd : s.DataInv) (h : runCommand w s = .next t) :
    t.Inv := by
  obtain ⟨_, -, he⟩ | ⟨-, rfl⟩ := runCommand_next h
  · exact inv_exec hd he
  · exact inv_complete hd (.of_error .illegalCmd)

theorem inv_performAccess {s : State} (hs : s.Inv) (a : Access) : (performAccess s a).1.Inv := by
  obtain h | ⟨i, v, hi, h⟩ | ⟨r, v, h⟩ := performAccess_fst_cases s a
  · rwa [h]
  · rw [h]
    exact { hs with frameBuf_wf := Memory.wf_set v hi hs.frameBuf_wf }
  · rw [h]
    obtain ⟨-, hw⟩ | ⟨-, hw⟩ | ⟨-, hw⟩ | hw := writeReg_cases s v r
    · rw [hw]; exact inv_acceptCommand v hs.dataInv
    · rw [hw]; exact { hs with }
    · rw [hw]; exact { hs with }
    · rwa [hw]

theorem inv_hostTurn {s : State} (hs : s.Inv) : (hostTurn s).Inv := by
  obtain h | ⟨op, rest, -, -, h⟩ := hostTurn_cases s
  · rwa [h]
  · rw [h]
    exact { inv_performAccess hs (accessOf op) with }

/-- A reset meets the invariant from any state (70_reset_and_hazards.md R272). -/
theorem inv_resetBlock (ops : List HostOp) (s : State) : (resetBlock ops s).Inv := { inv_reset with }

theorem inv_takeTurn {turn : Turn} {s t : State} (hs : s.Inv) (h : takeTurn turn s = .next t) : t.Inv := by
  obtain ⟨-, rfl⟩ | ⟨-, -, rfl⟩ | ⟨w, -, -, hw⟩ | ⟨ops, -, rfl⟩ := takeTurn_next h
  · exact inv_hostTurn hs
  · exact hs
  · exact inv_runCommand hs.dataInv hw
  · exact inv_resetBlock ops s

theorem inv_step {s t : State} (hs : s.Inv) (h : step s = .next t) : t.Inv := by
  obtain ⟨_, rest, -, ht⟩ | ⟨-, ht⟩ := step_next h
  · have hrest : State.Inv { s with turns := rest } := { hs with }
    exact inv_takeTurn hrest ht
  · exact inv_takeTurn hs ht

/-- Settles O41, by the kinds of turn: the host's access, the completion of a command, or a reset. -/
theorem invariantKeptByEveryStep : Obligations.InvariantKeptByEveryStep := by
  unfold Obligations.InvariantKeptByEveryStep
  intro s t hs h
  exact inv_step hs h

end Sys2Proof.Machine
end

section
/-! PROOFS. What a command may change, and what it depends on: the registers it writes, its inputs, and
`STATUS`. -/

namespace Sys2Proof.Machine

/-! The registers of each command. -/

/-- The registers a command may write (10_state.md R23, R28 to R34). -/
def writtenBy : Instr → List Reg
  | .crcInit => [.crc, .status]
  | .crcByte _ => [.crc, .status]
  | .crcBuf => [.crc, .status]
  | .validate => [.rxCrc, .calcCrc, .status]
  | .segDecode _ => [.segOut, .status]
  | .decodePayload => [.outLen, .status]
  | .parse => [.rxCrc, .calcCrc, .msgType, .payLen, .outLen, .status]

/-- A command changes none but its own registers, on any of the ways it completes. -/
theorem exec_keepsRegsExcept {i : Instr} {s t : State} (h : exec i s = .next t) :
    KeepsRegsExcept (writtenBy i) s t := by
  intro r
  rcases exec_next h with ⟨rfl, rfl⟩ | ⟨_, rfl, rfl⟩ | ⟨rfl | rfl, -, rfl⟩ | ⟨rfl, -, rfl⟩ | ⟨rfl, rfl⟩
    | ⟨_, rfl, rfl⟩ | ⟨rfl, -, rfl⟩ | ⟨rfl, -, rfl⟩ | ⟨rfl, -, -, rfl⟩ | ⟨rfl, -, -, rfl⟩
  all_goals cases r <;> simp [writtenBy, readReg, parseRejected, parseHeight, parseUnknown]

/-- A register that a command changed is one of the command's own. -/
theorem mem_writtenBy_of_ne {i : Instr} {s t : State} {r : Reg} (h : exec i s = .next t)
    (hr : readReg t r ≠ readReg s r) : r ∈ writtenBy i :=
  by_contra fun hn => hr (exec_keepsRegsExcept h r hn)

/-- `writtenBy` read the other way: the writers of each register. -/
theorem writers_of_mem_writtenBy (i : Instr) :
    (.crc ∈ writtenBy i → i = .crcInit ∨ i = .crcBuf ∨ ∃ b, i = .crcByte b)
    ∧ (.rxCrc ∈ writtenBy i → i = .validate ∨ i = .parse)
    ∧ (.calcCrc ∈ writtenBy i → i = .validate ∨ i = .parse)
    ∧ (.msgType ∈ writtenBy i → i = .parse)
    ∧ (.payLen ∈ writtenBy i → i = .parse)
    ∧ (.segOut ∈ writtenBy i → ∃ b, i = .segDecode b)
    ∧ (.outLen ∈ writtenBy i → i = .decodePayload ∨ i = .parse) := by
  cases i <;> simp [writtenBy]

theorem operands_not_mem_writtenBy (i : Instr) : .frameLen ∉ writtenBy i ∧ .arg ∉ writtenBy i := by
  cases i <;> simp [writtenBy]

/-- Only the two commands that validate can end with `RESULT` = 1 (10_state.md R23). -/
theorem exec_result_writers {i : Instr} {s t : State} (h : exec i s = .next t)
    (hr : t.status.results.result = true) : i = .validate ∨ i = .parse := by
  cases i with
  | validate => exact .inl rfl
  | parse => exact .inr rfl
  | crcInit => cases h; cases hr
  | crcByte b => cases h; cases hr
  | crcBuf => obtain ⟨-, rfl⟩ | ⟨-, rfl⟩ := execCrcBuf_next h <;> cases hr
  | segDecode b => cases h; cases hr
  | decodePayload => obtain ⟨-, rfl⟩ | ⟨-, rfl⟩ := execDecodePayload_next h <;> cases hr

/-- Settles O36, from the registers of each command. -/
theorem eachRegisterHasItsWriters : Obligations.EachRegisterHasItsWriters := by
  unfold Obligations.EachRegisterHasItsWriters
  intro i s t h
  have own {r : Reg} : readReg t r ≠ readReg s r → r ∈ writtenBy i := mem_writtenBy_of_ne h
  obtain ⟨hcrc, hrx, hcalc, hmsg, hpay, hseg, hout⟩ := writers_of_mem_writtenBy i
  exact ⟨hcrc ∘ own, hrx ∘ own, hcalc ∘ own, hmsg ∘ own, hpay ∘ own, hseg ∘ own, hout ∘ own,
    exec_result_writers h⟩

/-! Every command ends in a completion and keeps its inputs. -/

/-- A command word's answer is the completion of a state with the old `FRAME_BUF` (30_encoding.md R99). -/
theorem runCommand_completes {w : Word32} {s t : State} (h : runCommand w s = .next t) :
    ∃ u r, t = complete u r ∧ u.frameBuf = s.frameBuf ∧ u.resetCount = s.resetCount := by
  obtain ⟨i, -, he⟩ | ⟨-, rfl⟩ := runCommand_next h
  · rcases exec_next he with ⟨-, rfl⟩ | ⟨_, -, rfl⟩ | ⟨-, -, rfl⟩ | ⟨-, -, rfl⟩ | ⟨-, rfl⟩
      | ⟨_, -, rfl⟩ | ⟨-, -, rfl⟩ | ⟨-, -, rfl⟩ | ⟨-, -, -, rfl⟩ | ⟨-, -, -, rfl⟩
    all_goals exact ⟨_, _, rfl, rfl, rfl⟩
  · exact ⟨_, _, rfl, rfl, rfl⟩

theorem runCommand_keepsFrameBuf {w : Word32} {s t : State} (h : runCommand w s = .next t) :
    KeepsFrameBuf s t := by
  obtain ⟨u, r, rfl, hb, hc⟩ := runCommand_completes h
  exact frameByte_congr hb hc

theorem runCommand_inflight {w : Word32} {s t : State} (h : runCommand w s = .next t) :
    t.inflight = none := by
  obtain ⟨u, r, rfl, -⟩ := runCommand_completes h
  exact complete_inflight u r

theorem runCommand_status {w : Word32} {s t : State} (h : runCommand w s = .next t) :
    t.status.busy = false ∧ t.status.done = true := by
  obtain ⟨u, r, rfl, -⟩ := runCommand_completes h
  exact ⟨rfl, rfl⟩

theorem runCommand_keepsOperands {w : Word32} {s t : State} (h : runCommand w s = .next t) :
    readReg t .frameLen = readReg s .frameLen ∧ readReg t .arg = readReg s .arg := by
  obtain ⟨i, -, he⟩ | ⟨-, rfl⟩ := runCommand_next h
  · obtain ⟨hlen, harg⟩ := operands_not_mem_writtenBy i
    exact ⟨exec_keepsRegsExcept he _ hlen, exec_keepsRegsExcept he _ harg⟩
  · exact ⟨readReg_complete _ _ (by decide), readReg_complete _ _ (by decide)⟩

/-- Settles O35: no command has an operand register among its own, and each answers the old `FRAME_BUF`. -/
theorem commandsNeverWriteTheirInputs : Obligations.CommandsNeverWriteTheirInputs := by
  unfold Obligations.CommandsNeverWriteTheirInputs
  intro w s t h
  obtain ⟨hlen, harg⟩ := runCommand_keepsOperands h
  exact ⟨hlen, harg, runCommand_keepsFrameBuf h⟩

/-! No command reads `STATUS`. -/

/-- The verdict reads the frame's own bytes alone (41_validator.md R168). -/
theorem validateCore_congr {s t : State} {n : Nat} (h : ∀ i, i < n → frameByte t i = frameByte s i) :
    validateCore t n = validateCore s n := by
  cases hn : lengthReadable n with
  | false => rw [validateCore_of_not_readable hn, validateCore_of_not_readable hn]
  | true =>
    have hlen := (lengthReadable_iff n).mp hn
    have hstart : startOkOf t = startOkOf s := by rw [startOkOf, startOkOf, h 0 (by omega)]
    have hend : endOkOf t n = endOkOf s n := by rw [endOkOf, endOkOf, h _ (by omega)]
    have hlenOk : lenOkOf t n = lenOkOf s n := by rw [lenOkOf, lenOkOf, h 1 (by omega)]
    have hrx : rxOf t n = rxOf s n := by rw [rxOf, rxOf, h _ (by omega), h _ (by omega)]
    have hcalc : calcOf t n = calcOf s n :=
      congrArg crc16 (frameBytes_congr fun i _ hi => h i (by omega))
    rw [validateCore_of_readable hn, validateCore_of_readable hn, hstart, hend, hlenOk, hrx, hcalc]

section SetStatus

variable (s : State) (st : Status)

theorem frameBytes_setStatus (start count : Nat) :
    frameBytes { s with status := st } start count = frameBytes s start count :=
  frameBytes_congr fun _ _ _ => rfl

theorem validateCore_setStatus (n : Nat) : validateCore { s with status := st } n = validateCore s n :=
  validateCore_congr fun _ _ => rfl

theorem decodeRun_setStatus (base count : Nat) :
    decodeRun { s with status := st } base count = decodeRun s base count :=
  congrArg readingOf (frameBytes_setStatus s st base count)

/-- A command answers the same state whatever `STATUS` was (10_state.md R24): its operands are elsewhere, and
its completion writes all of `STATUS`. -/
theorem exec_setStatus (i : Instr) : exec i { s with status := st } = exec i s := by
  cases i with
  | crcInit => rfl
  | crcByte b => rfl
  | crcBuf => simp only [exec, execCrcBuf, rangeBytes, frameBytes_setStatus]; rfl
  | validate => simp only [exec, execValidate, validateCore_setStatus]; rfl
  | segDecode b => rfl
  | decodePayload => simp only [exec, execDecodePayload, decodeRun_setStatus]; rfl
  | parse =>
    simp only [exec, execParse, validateCore_setStatus, parseHeight, payloadReading, decodeRun_setStatus]
    rfl

theorem runCommand_setStatus (w : Word32) : runCommand w { s with status := st } = runCommand w s := by
  unfold runCommand
  cases decode w with
  | ok i => exact exec_setStatus s st i
  | error _ => rfl

end SetStatus

/-- Settles O38: a completion writes all of `STATUS`, and no command reads it. -/
theorem statusNeverMixesCommands : Obligations.StatusNeverMixesCommands := by
  unfold Obligations.StatusNeverMixesCommands
  refine ⟨fun w s => ⟨rfl, rfl, rfl⟩, fun w s t st h => ?_⟩
  obtain ⟨hbusy, hdone⟩ := runCommand_status h
  exact ⟨hbusy, hdone, (runCommand_setStatus s st w).trans h⟩

end Sys2Proof.Machine
end

section
/-! PROOFS. A step that leaves a command in flight, and the reserved bits of the registers. -/

namespace Sys2Proof.Machine

/-! While `BUSY` = 1 the host moves nothing of the block. -/

/-- While `BUSY` = 1 the host's turn touches its own side alone: the one access it may have answered is a read
(20_memory.md R68). -/
theorem hostTurn_of_busy {s : State} (h : s.status.busy = true) :
    ∃ ops replies, hostTurn s = { s with pending := ops, replies := replies } := by
  obtain hs | ⟨op, rest, -, hheld, hs⟩ := hostTurn_cases s
  · exact ⟨_, _, hs⟩
  · have hread : accessOf op = readStatus := by simpa [held_of_busy h] using hheld
    rw [hs, hread, performAccess_readStatus]
    exact ⟨_, _, rfl⟩

/-- A turn that leaves the command in flight touches the host's side alone: it is the host's. -/
theorem takeTurn_in_flight {turn : Turn} {s t : State} {w : Word32} (hbusy : s.status.busy = true)
    (hw : s.inflight = some w) (h : takeTurn turn s = .next t) (ht : t.inflight = some w) :
    ∃ ops replies, t = { s with pending := ops, replies := replies } := by
  obtain ⟨-, rfl⟩ | ⟨-, hnone, -⟩ | ⟨_, -, -, hrun⟩ | ⟨_, -, rfl⟩ := takeTurn_next h
  · exact hostTurn_of_busy hbusy
  · rw [hw] at hnone; cases hnone
  · rw [runCommand_inflight hrun] at ht; cases ht
  · cases ht

theorem step_in_flight {s t : State} {w : Word32} (hs : s.Inv) (hw : s.inflight = some w)
    (h : step s = .next t) (ht : t.inflight = some w) :
    ∃ turns ops replies, t = { s with turns := turns, pending := ops, replies := replies } := by
  have hbusy : s.status.busy = true := by rw [hs.busy_eq_inflight, hw]; rfl
  obtain ⟨_, rest, -, hturn⟩ | ⟨-, hturn⟩ := step_next h
  · obtain ⟨ops, replies, rfl⟩ := takeTurn_in_flight (s := { s with turns := rest }) hbusy hw hturn ht
    exact ⟨_, _, _, rfl⟩
  · obtain ⟨ops, replies, rfl⟩ := takeTurn_in_flight hbusy hw hturn ht
    exact ⟨_, _, _, rfl⟩

/-- No register shows the host's side. -/
theorem readReg_setHost (s : State) (turns : List Turn) (ops : List HostOp) (replies : List Reply)
    (r : Reg) :
    readReg { s with turns := turns, pending := ops, replies := replies } r = readReg s r := by
  cases r <;> rfl

/-- Settles O51: of the turns only the host's can leave the command in flight, and it is held. -/
theorem operandsAreStableInFlight : Obligations.OperandsAreStableInFlight := by
  unfold Obligations.OperandsAreStableInFlight
  intro s t w hs hw h ht
  obtain ⟨turns, ops, replies, rfl⟩ := step_in_flight hs hw h ht
  exact ⟨readReg_setHost s turns ops replies, fun _ => rfl, fun _ _ => rfl⟩

/-! Reserved bits: a register's word and its used bits are built up of the same fields and gaps. -/

/-- A word has no bit outside the mask. -/
def Within {n : Nat} (x mask : BitVec n) : Prop := x &&& ~~~mask = 0#n

/-- A word within a mask, followed by one within another. -/
theorem Within.append {k n : Nat} {x mx : BitVec k} {y my : BitVec n} (hx : Within x mx)
    (hy : Within y my) : Within (x ++ y) (mx ++ my) := by
  rw [Within, BitVec.not_append, BitVec.and_append, hx, hy, BitVec.zero_append_zero]

theorem Within.zero (n : Nat) : Within 0#n 0#n := BitVec.zero_and

/-- A reserved gap below a word. -/
theorem Within.gap {k : Nat} {x m : BitVec k} (h : Within x m) (n : Nat) :
    Within (x ++ 0#n) (m ++ 0#n) := h.append (.zero n)

/-- A field below a word, all its bits used. -/
theorem Within.field {k n : Nat} {x m : BitVec k} (h : Within x m) (y : BitVec n) :
    Within (x ++ y) (m ++ BitVec.allOnes n) := h.append (by simp [Within])

theorem readReg_within_usedBits (s : State) (r : Reg) : Within (readReg s r) (usedBits r) := by
  cases r with
  | cmd => exact .zero 32
  | status =>
    exact (Within.zero 16).field (errBits s.status.results.err)
      |>.gap 1
      |>.field (flag s.status.results.unrecSeen)
      |>.field (flag s.status.results.emptyPayload)
      |>.field (flag s.status.results.unknownType)
      |>.field (flag s.status.results.height)
      |>.field (flag s.status.results.crcOk)
      |>.field (flag s.status.results.lenOk)
      |>.field (flag s.status.results.endOk)
      |>.field (flag s.status.results.startOk)
      |>.field (flag s.status.results.result)
      |>.field (flag s.status.done)
      |>.field (flag s.status.busy)
  | frameLen => exact (Within.zero 23).field s.frameLen
  | arg => exact (Within.zero 7).field s.argCount |>.gap 7 |>.field s.argStart
  | crc => exact (Within.zero 16).field s.crc
  | rxCrc => exact (Within.zero 16).field s.rxCrc
  | calcCrc => exact (Within.zero 16).field s.calcCrc
  | msgType => exact (Within.zero 24).field s.msgType
  | payLen => exact (Within.zero 24).field s.payLen
  | segOut =>
    exact (Within.zero 22).field (flag s.segOut.unrec) |>.field (flag s.segOut.dp)
      |>.field s.segOut.char
  | outLen => exact (Within.zero 22).field s.outLen

/-- A field of a write is the same once the bits outside a mask that holds the field are cleared. -/
theorem extractLsb'_and_of_mask {v mask : Word32} {start len : Nat}
    (h : mask.extractLsb' start len = BitVec.allOnes len) :
    (v &&& mask).extractLsb' start len = v.extractLsb' start len := by
  rw [BitVec.extractLsb'_and, h, BitVec.and_allOnes]

/-- A register that stores a write stores its used bits alone (10_state.md R22). -/
theorem writeReg_and_usedBits (s : State) (v : Word32) {r : Reg} (hr : r ≠ .cmd) :
    writeReg s v r = writeReg s (v &&& usedBits r) r := by
  cases r with
  | cmd => exact absurd rfl hr
  | frameLen => rw [writeReg, writeReg, extractLsb'_and_of_mask (by decide)]
  | arg => rw [writeReg, writeReg, extractLsb'_and_of_mask (by decide), extractLsb'_and_of_mask (by decide)]
  | _ => rfl

/-- Settles O55, register by register. -/
theorem reservedBitsReadZero : Obligations.ReservedBitsReadZero := by
  unfold Obligations.ReservedBitsReadZero
  exact fun s r => ⟨readReg_within_usedBits s r, fun hr v => writeReg_and_usedBits s v hr⟩

end Sys2Proof.Machine
end

section
/-! PROOFS. The commands and `OUT_BUF`: the codes a command writes there, at the indices its `OUT_LEN` counts
(20_memory.md R74), and that none reads it (R73). -/

namespace Sys2Proof.Machine

/-- The codes a command writes to `OUT_BUF`, from index 0 on (42_decoder.md R193). -/
def codesWritten : Instr → State → List Byte
  | .decodePayload, s => if rangeError s then [] else (readingOf (rangeBytes s)).codes
  | .parse, s =>
    if (validateCore s (operandN s)).valid = true ∧ messageType s = Config.msgHeight then
      (payloadReading s).codes
    else []
  | _, _ => []

/-- A reading of at most 256 bytes has at most 512 codes (42_decoder.md R193, 10_state.md R36). -/
theorem length_readingOf_codes_le {bs : List Byte} (hb : bs.length ≤ 256) :
    (readingOf bs).codes.length ≤ 512 :=
  (length_flatMap_segChars bs).2.trans (by omega)

theorem length_codesWritten_le (i : Instr) (s : State) : (codesWritten i s).length ≤ 512 := by
  cases i with
  | decodePayload =>
    rw [codesWritten]
    split
    · exact Nat.zero_le _
    · exact length_readingOf_codes_le (length_rangeBytes_le (Bool.eq_false_of_not_eq_true ‹_›))
  | parse =>
    rw [codesWritten]
    split
    case isTrue h =>
      refine length_readingOf_codes_le ?_
      rw [length_frameBytes]
      exact (payloadLength_le h.1).trans (by omega)
    case isFalse => exact Nat.zero_le _
  | _ => exact Nat.zero_le _

/-- A command keeps `OUT_BUF`, or completes with its codes as the reading there. -/
theorem exec_outBuf_cases {i : Instr} {s t : State} (h : exec i s = .next t) :
    (codesWritten i s = [] ∧ t.outBuf = s.outBuf ∧ t.resetCount = s.resetCount)
      ∨ ∃ u r, t = complete (writeReading u (codesWritten i s)) r
          ∧ u.outBuf = s.outBuf ∧ u.resetCount = s.resetCount := by
  cases i with
  | decodePayload =>
    obtain ⟨hr, rfl⟩ | ⟨hr, rfl⟩ := execDecodePayload_next h
    · exact .inl ⟨if_pos hr, rfl, rfl⟩
    · rw [codesWritten, hr]
      exact .inr ⟨_, _, rfl, rfl, rfl⟩
  | parse =>
    obtain ⟨hv, rfl⟩ | ⟨hv, ht, rfl⟩ | ⟨hv, ht, rfl⟩ := execParse_next h
    · exact .inl ⟨if_neg (by simp [hv]), rfl, rfl⟩
    · rw [codesWritten, if_pos ⟨hv, ht⟩]
      exact .inr ⟨_, _, rfl, rfl, rfl⟩
    · exact .inl ⟨if_neg fun hm => ht hm.2, rfl, rfl⟩
  | crcBuf => obtain ⟨-, rfl⟩ | ⟨-, rfl⟩ := execCrcBuf_next h <;> exact .inl ⟨rfl, rfl, rfl⟩
  | _ => cases h; exact .inl ⟨rfl, rfl, rfl⟩

/-- `OUT_BUF` after a command: its codes at the front, and the old bytes past them. -/
theorem exec_outByte {i : Instr} {s t : State} (h : exec i s = .next t) (j : Nat) :
    outByte t j = if hj : j < (codesWritten i s).length then (codesWritten i s)[j] else outByte s j := by
  obtain ⟨hnil, hb, hc⟩ | ⟨u, r, rfl, hb, hc⟩ := exec_outBuf_cases h
  · simp [hnil, outByte_congr hb hc]
  · rw [outByte_complete, outByte_writeReading, outByte_congr hb hc]

/-- A command changes `OUT_BUF` only where it writes a code. -/
theorem lt_length_codesWritten_of_ne {i : Instr} {s t : State} {j : Nat} (h : exec i s = .next t)
    (hj : outByte t j ≠ outByte s j) : j < (codesWritten i s).length :=
  by_contra fun hlt => hj (by rw [exec_outByte h, dif_neg hlt])

/-- A command that writes a code leaves their number in `OUT_LEN` (42_decoder.md R193). -/
theorem exec_outLen {i : Instr} {s t : State} (h : exec i s = .next t) (hcs : codesWritten i s ≠ []) :
    t.outLen.toNat = (codesWritten i s).length := by
  obtain ⟨hnil, -⟩ | ⟨u, r, rfl, -⟩ := exec_outBuf_cases h
  · exact absurd hnil hcs
  · have hle := length_codesWritten_le i s
    rw [complete_outLen, writeReading_outLen, BitVec.toNat_ofNat, Nat.mod_eq_of_lt (by omega)]

/-- Settles O29: a changed byte lies among the codes the command wrote, which `OUT_LEN` counts. -/
theorem outBufWrittenBelowOutLenOnly : Obligations.OutBufWrittenBelowOutLenOnly := by
  unfold Obligations.OutBufWrittenBelowOutLenOnly
  intro i s t j h hj
  have hlt := lt_length_codesWritten_of_ne h hj
  rw [exec_outLen h (List.ne_nil_of_length_pos (Nat.zero_lt_of_lt hlt))]
  exact ⟨hlt, length_codesWritten_le i s⟩

/-! The answers of the commands that branch, one equation per branch. -/

theorem execCrcBuf_of_range (s : State) (hr : rangeError s = true) :
    execCrcBuf s = .next (complete s { err := .range }) := if_pos hr

theorem execCrcBuf_of_fits (s : State) (hr : rangeError s = false) :
    execCrcBuf s = .next (complete { s with crc := crc16 (rangeBytes s) } {}) :=
  if_neg (Bool.eq_false_iff.mp hr)

theorem execDecodePayload_of_range (s : State) (hr : rangeError s = true) :
    execDecodePayload s = .next (complete s { err := .range }) := if_pos hr

theorem execDecodePayload_of_fits (s : State) (hr : rangeError s = false) :
    execDecodePayload s = .next (complete (writeReading s (readingOf (rangeBytes s)).codes)
      { emptyPayload := decide (operandC s = 0), unrecSeen := (readingOf (rangeBytes s)).unrecAny }) :=
  if_neg (Bool.eq_false_iff.mp hr)

theorem execParse_of_rejected (s : State) (hv : (validateCore s (operandN s)).valid = false) :
    execParse s = .next (parseRejected s (validateCore s (operandN s))) :=
  if_neg (Bool.eq_false_iff.mp hv)

theorem execParse_of_height (s : State) (hv : (validateCore s (operandN s)).valid = true)
    (ht : frameByte s 2 = 0x12#8) :
    execParse s = .next (parseHeight s (validateCore s (operandN s))) :=
  (if_pos hv).trans (if_pos (beq_iff_eq.mpr ht))

theorem execParse_of_unknown (s : State) (hv : (validateCore s (operandN s)).valid = true)
    (ht : frameByte s 2 ≠ 0x12#8) :
    execParse s = .next (parseUnknown s (validateCore s (operandN s))) :=
  (if_pos hv).trans (if_neg (mt beq_iff_eq.mp ht))

/-! No command reads `OUT_BUF`. -/

/-- The state with other contents of `OUT_BUF`. -/
def withOutBuf (m : Memory) (s : State) : State := { s with outBuf := m }

section WithOutBuf

variable (m : Memory) (s : State)

theorem readReg_withOutBuf (r : Reg) : readReg (withOutBuf m s) r = readReg s r := by
  cases r <;> rfl

theorem frameBytes_withOutBuf (start count : Nat) :
    frameBytes (withOutBuf m s) start count = frameBytes s start count :=
  frameBytes_congr fun _ _ _ => rfl

theorem rangeBytes_withOutBuf : rangeBytes (withOutBuf m s) = rangeBytes s :=
  frameBytes_withOutBuf m s _ _

theorem validateCore_withOutBuf :
    validateCore (withOutBuf m s) (operandN (withOutBuf m s)) = validateCore s (operandN s) :=
  validateCore_congr fun _ _ => rfl

theorem parseHeight_withOutBuf (v : Verdict) :
    parseHeight (withOutBuf m s) v
      = withOutBuf (Memory.setList m 0 (payloadReading s).codes) (parseHeight s v) := by
  have hread : payloadReading (withOutBuf m s) = payloadReading s :=
    congrArg readingOf (frameBytes_withOutBuf m s _ _)
  rw [parseHeight, hread]; rfl

end WithOutBuf

/-- With other contents of `OUT_BUF` a command answers the same state but for `OUT_BUF`, where it writes the
same codes over those contents. -/
theorem exec_withOutBuf {i : Instr} {s t : State} (h : exec i s = .next t) (m : Memory) :
    exec i (withOutBuf m s) = .next (withOutBuf (Memory.setList m 0 (codesWritten i s)) t) := by
  cases i with
  | crcBuf =>
    obtain ⟨hr, rfl⟩ | ⟨hr, rfl⟩ := execCrcBuf_next h
    · exact execCrcBuf_of_range (withOutBuf m s) hr
    · refine (execCrcBuf_of_fits (withOutBuf m s) hr).trans ?_
      rw [rangeBytes_withOutBuf]; rfl
  | validate => cases h; rw [exec, execValidate, validateCore_withOutBuf]; rfl
  | decodePayload =>
    obtain ⟨hr, rfl⟩ | ⟨hr, rfl⟩ := execDecodePayload_next h
    · rw [codesWritten, if_pos hr]
      exact execDecodePayload_of_range (withOutBuf m s) hr
    · refine (execDecodePayload_of_fits (withOutBuf m s) hr).trans ?_
      rw [rangeBytes_withOutBuf, codesWritten, hr]; rfl
  | parse =>
    have hcore := validateCore_withOutBuf m s
    obtain ⟨hv, rfl⟩ | ⟨hv, ht, rfl⟩ | ⟨hv, ht, rfl⟩ := execParse_next h
    · refine (execParse_of_rejected (withOutBuf m s) (by rw [hcore, hv])).trans ?_
      rw [hcore, codesWritten, if_neg (by simp [hv])]; rfl
    · refine (execParse_of_height (withOutBuf m s) (by rw [hcore, hv]) ht).trans ?_
      rw [hcore, parseHeight_withOutBuf, codesWritten, if_pos ⟨hv, ht⟩]
    · refine (execParse_of_unknown (withOutBuf m s) (by rw [hcore, hv]) ht).trans ?_
      rw [hcore, codesWritten, if_neg fun hm => ht hm.2]; rfl
  | _ => cases h; rfl

/-- Settles O37: with other contents of `OUT_BUF` a command answers the same registers and writes the same
codes, and an illegal word writes none. -/
theorem commandsNeverReadOutBuf : Obligations.CommandsNeverReadOutBuf := by
  unfold Obligations.CommandsNeverReadOutBuf
  intro w s t m h
  obtain ⟨i, hi, he⟩ | ⟨⟨why, hwhy⟩, rfl⟩ := runCommand_next h
  · have hu := (runCommand_ok hi (withOutBuf m s)).trans (exec_withOutBuf he m)
    refine ⟨_, hu, readReg_withOutBuf _ t, fun j hj => ?_⟩
    have hlt := lt_length_codesWritten_of_ne he hj
    rw [exec_outByte he, dif_pos hlt]
    exact (Memory.byteAt_setList _ _ _ _ _).trans (dif_pos hlt)
  · refine ⟨_, runCommand_error hwhy _, ?_, fun j hj => absurd (outByte_complete s _ j) hj⟩
    exact readReg_withOutBuf m (complete s _)

end Sys2Proof.Machine
end

section
/-! PROOFS. The host's accesses: which ones reach a place of the window, and what a reached place makes of a
read, a write, and a repetition (20_memory.md R61 to R67). -/

namespace Sys2Proof.Machine

/-! The place an access reaches. -/

/-- The width of the accesses that reach a place (20_memory.md R62, R63). -/
def Location.width : Location → Width
  | .reg _ => .w32
  | .frame _ => .w8
  | .out _ => .w8

/-- What `locate` finds at an offset, by the window's three ranges (20_memory.md R61 to R63). -/
theorem locate_eq_some {width : Width} {off : BitVec 10} {l : Location} (h : locate width off = some l) :
    width = l.width ∧ ∀ r, l = .reg r → off = regOffset r := by
  have hoff : ∀ k (hk : k < regMap.length), (regOffset regMap[k]).toNat = 4 * k := by decide
  unfold locate at h
  dsimp only at h
  split_ifs at h with hregs hword hgap hbyte hframe
  · obtain ⟨r, hr, rfl⟩ := Option.map_eq_some_iff.mp h
    obtain ⟨hk, rfl⟩ := List.getElem?_eq_some_iff.mp hr
    refine ⟨hword.1, fun r hl => ?_⟩
    cases hl
    apply BitVec.eq_of_toNat_eq
    rw [hoff _ hk]; omega
  · cases h
    exact ⟨hbyte, nofun⟩
  · cases h
    exact ⟨hbyte, nofun⟩

theorem locate_width {width : Width} {off : BitVec 10} {l : Location} (h : locate width off = some l) :
    width = l.width := (locate_eq_some h).1

/-- A register is located at its own offset alone (20_memory.md R61). -/
theorem eq_regOffset_of_locate {width : Width} {off : BitVec 10} {r : Reg}
    (h : locate width off = some (.reg r)) : off = regOffset r := (locate_eq_some h).2 r rfl

/-- The place an access reaches, if any; none is a bus error (20_memory.md R65). -/
def accessPlace : Access → Option Location
  | .read width off => locate width off
  | .write8 off _ => locate .w8 off
  | .write16 off _ => locate .w16 off
  | .write32 off _ => locate .w32 off

theorem accessPlace_eq_none_iff (a : Access) :
    accessPlace a = none ↔
      ¬ ((accessWidth a = .w32 ∧ accessOffset a < 0x02C ∧ accessOffset a % 4 = 0)
        ∨ (accessWidth a = .w8 ∧ 0x100 ≤ accessOffset a)) := by
  cases a <;> exact locate_eq_none_iff _ _

/-- An access that reaches no place is answered with a bus error and has no effect (R65). -/
theorem performAccess_of_no_place {a : Access} (h : accessPlace a = none) (s : State) :
    performAccess s a = (s, .busError) := by
  cases a with
  | write16 off v => rfl
  | _ => simp only [accessPlace] at h; simp only [performAccess, h]

/-- What an access that reaches a place does from every state (R66): a read, a write of a `FRAME_BUF` byte, a
write that is ignored, or a write of a register. -/
theorem performAccess_of_place {a : Access} {l : Location} (h : accessPlace a = some l) :
    (∀ s, performAccess s a = (s, readLocation s l))
      ∨ (∃ i v, ∀ s, performAccess s a = (setFrameByte s i v, .ok))
      ∨ (∀ s, performAccess s a = (s, .ok))
      ∨ ∃ r v, a = .write32 (regOffset r) v ∧ ∀ s, performAccess s a = (writeReg s v r, .ok) := by
  cases a with
  | read width off => exact .inl fun s => performAccess_of_locate_read h
  | write8 off v =>
    simp only [accessPlace] at h
    cases l with
    | reg r => cases locate_width h
    | frame i => exact .inr (.inl ⟨i, v, fun s => by simp only [performAccess, h]⟩)
    | out j => exact .inr (.inr (.inl fun s => by simp only [performAccess, h]))
  | write16 off v => cases l <;> cases locate_width h
  | write32 off v =>
    cases l with
    | reg r =>
      obtain rfl := eq_regOffset_of_locate h
      exact .inr (.inr (.inr ⟨r, v, rfl, fun s => performAccess_write_reg s r v⟩))
    | frame i => cases locate_width h
    | out j => cases locate_width h

theorem performAccess_reply_of_place {a : Access} {l : Location} (h : accessPlace a = some l) (s : State) :
    (performAccess s a).2 ≠ .busError := by
  obtain ha | ⟨_, _, ha⟩ | ha | ⟨_, _, -, ha⟩ := performAccess_of_place h <;> rw [ha]
  · cases l <;> exact nofun
  all_goals exact nofun

theorem performAccess_busError_iff (s : State) (a : Access) :
    (performAccess s a).2 = .busError ↔ accessPlace a = none := by
  refine ⟨fun h => ?_, fun h => by rw [performAccess_of_no_place h]⟩
  cases hp : accessPlace a with
  | none => rfl
  | some l => exact absurd h (performAccess_reply_of_place hp s)

/-- Settles O43: an access gets a bus error exactly when it reaches no place of the window. -/
theorem busErrorsExactly : Obligations.BusErrorsExactly := by
  unfold Obligations.BusErrorsExactly
  exact fun s a => (performAccess_busError_iff s a).trans (accessPlace_eq_none_iff a)

/-- Settles O44: an access that reaches no place is the identity on the state. -/
theorem busErrorChangesNothing : Obligations.BusErrorChangesNothing := by
  unfold Obligations.BusErrorChangesNothing
  intro s a h
  have hp := performAccess_of_no_place ((performAccess_busError_iff s a).mp h) s
  refine ⟨congrArg Prod.fst hp, fun ops hops hheld => ?_⟩
  rw [hostTurn_answered hops hheld, accessOf, hp]
  rfl

/-! Repeating an access. -/

theorem setFrameByte_setFrameByte (s : State) (i : Nat) (v : Byte) :
    setFrameByte (setFrameByte s i v) i v = setFrameByte s i v := by
  rw [setFrameByte, setFrameByte, Memory.set_set]

/-- Storing the same word in a register again changes nothing more (20_memory.md R67). -/
theorem writeReg_writeReg (s : State) (v : Word32) {r : Reg} (hr : r ≠ .cmd) :
    writeReg (writeReg s v r) v r = writeReg s v r := by
  cases r with
  | cmd => exact absurd rfl hr
  | _ => rfl

/-- Performing an access again changes nothing more and gets the same reply, but for a write of `CMD` (R67). -/
theorem performAccess_performAccess (s : State) {a : Access} (hcmd : ∀ w, a ≠ .write32 0x000#10 w) :
    performAccess (performAccess s a).1 a = performAccess s a := by
  cases hp : accessPlace a with
  | none => simp only [performAccess_of_no_place hp]
  | some l =>
    obtain ha | ⟨i, v, ha⟩ | ha | ⟨r, v, rfl, ha⟩ := performAccess_of_place hp
    · simp only [ha]
    · simp only [ha, setFrameByte_setFrameByte]
    · simp only [ha]
    · have hr : r ≠ .cmd := fun hr => hcmd v (by rw [hr]; rfl)
      simp only [ha, writeReg_writeReg s v hr]

/-- Settles O46: reads keep the state, and every store but an acceptance is idempotent. -/
theorem readsAndStoresAreIdempotent : Obligations.ReadsAndStoresAreIdempotent := by
  unfold Obligations.ReadsAndStoresAreIdempotent
  refine fun s a => ⟨fun hread => ?_, performAccess_performAccess s⟩
  cases a with
  | read width off => exact performAccess_read_fst s width off
  | _ => cases hread

/-! The effect of every access that is not held. -/

theorem outByte_writeReg (s : State) (v : Word32) (r : Reg) (j : Nat) :
    outByte (writeReg s v r) j = outByte s j := by
  obtain ⟨-, h⟩ | ⟨-, h⟩ | ⟨-, h⟩ | h := writeReg_cases s v r <;> rw [h] <;> rfl

theorem frameByte_writeReg (s : State) (v : Word32) (r : Reg) (i : Nat) :
    frameByte (writeReg s v r) i = frameByte s i := by
  obtain ⟨-, h⟩ | ⟨-, h⟩ | ⟨-, h⟩ | h := writeReg_cases s v r <;> rw [h] <;> rfl

/-- A write of a register that stores shows in that register alone. -/
theorem readReg_writeReg_of_ne (s : State) (v : Word32) {r q : Reg} (hr : r ≠ .cmd) (hq : q ≠ r) :
    readReg (writeReg s v r) q = readReg s q := by
  cases r with
  | cmd => exact absurd rfl hr
  | frameLen => cases q with
    | frameLen => exact absurd rfl hq
    | _ => rfl
  | arg => cases q with
    | arg => exact absurd rfl hq
    | _ => rfl
  | _ => rfl

/-- A masked word, by the four fields that `ARG` divides a word into (10_state.md R27). -/
theorem and_argFields (v : Word32) (m₃ : BitVec 7) (m₂ : BitVec 9) (m₁ : BitVec 7) (m₀ : BitVec 9) :
    v &&& (m₃ ++ m₂ ++ m₁ ++ m₀)
      = (v.extractLsb' 25 7 &&& m₃) ++ (v.extractLsb' 16 9 &&& m₂) ++ (v.extractLsb' 9 7 &&& m₁)
        ++ (v.extractLsb' 0 9 &&& m₀) := by
  have h₃ : v.extractLsb' 25 7 ++ v.extractLsb' 16 9 = v.extractLsb' 16 16 :=
    BitVec.extractLsb'_append_extractLsb'_eq_extractLsb' rfl
  have h₁ : v.extractLsb' 16 16 ++ v.extractLsb' 9 7 = v.extractLsb' 9 23 :=
    BitVec.extractLsb'_append_extractLsb'_eq_extractLsb' rfl
  have h₀ : v.extractLsb' 9 23 ++ v.extractLsb' 0 9 = v.extractLsb' 0 32 :=
    BitVec.extractLsb'_append_extractLsb'_eq_extractLsb' rfl
  rw [← BitVec.and_append, ← BitVec.and_append, ← BitVec.and_append, h₃, h₁, h₀,
    BitVec.extractLsb'_eq_self]

/-- A write of `FRAME_LEN` stores its used bits (10_state.md R26). -/
theorem readReg_writeReg_frameLen (s : State) (v : Word32) :
    readReg (writeReg s v .frameLen) .frameLen = v &&& 0x000001FF#32 := by
  have hfields := and_argFields v 0#7 0#9 0#7 (BitVec.allOnes 9)
  simp only [BitVec.and_zero, BitVec.and_allOnes] at hfields
  exact hfields.symm

/-- A write of `ARG` stores its used bits (10_state.md R27). -/
theorem readReg_writeReg_arg (s : State) (v : Word32) :
    readReg (writeReg s v .arg) .arg = v &&& 0x01FF01FF#32 := by
  have hfields := and_argFields v 0#7 (BitVec.allOnes 9) 0#7 (BitVec.allOnes 9)
  simp only [BitVec.and_zero, BitVec.and_allOnes] at hfields
  exact hfields.symm

theorem writeReg_of_readOnly {r : Reg} (hr : readOnly r) (s : State) (v : Word32) : writeReg s v r = s := by
  obtain ⟨hcmd, hlen, harg⟩ := hr
  obtain ⟨rfl, -⟩ | ⟨rfl, -⟩ | ⟨rfl, -⟩ | h := writeReg_cases s v r
  · exact absurd rfl hcmd
  · exact absurd rfl hlen
  · exact absurd rfl harg
  · exact h

/-- A write of `FRAME_LEN` or `ARG` changes that register alone (20_memory.md R66). -/
theorem writeReg_keeps (s : State) (v : Word32) {r : Reg} (hr : r ≠ .cmd) :
    KeepsRegsExcept [r] s (writeReg s v r) ∧ (writeReg s v r).inflight = s.inflight
      ∧ KeepsFrameBuf s (writeReg s v r) ∧ KeepsOutBufFrom 0 s (writeReg s v r) := by
  refine ⟨fun q hq => readReg_writeReg_of_ne s v hr (mt List.mem_singleton.mpr hq), ?_,
    frameByte_writeReg s v r, fun j _ => outByte_writeReg s v r j⟩
  obtain ⟨rfl, -⟩ | ⟨-, h⟩ | ⟨-, h⟩ | h := writeReg_cases s v r
  · exact absurd rfl hr
  all_goals rw [h]

/-- Settles O45: the place of each access, and what its write changes there. -/
theorem hostAccessEffects : Obligations.HostAccessEffects := by
  unfold Obligations.HostAccessEffects
  intro s
  refine ⟨fun w => ?_, fun v => ?_, fun v => ?_, fun i v hi => ?_, fun r v hr => ?_,
    fun j v hj => performAccess_write_out s hj v, performAccess_read_reg s, rfl,
    fun i hi => performAccess_read_frame s hi, fun j hj => performAccess_read_out s hj⟩
  · exact ⟨_, performAccess_write_cmd s w, rfl, readReg_acceptCommand_status s w,
      fun q hq => readReg_acceptCommand s w (mt List.mem_singleton.mpr hq), fun _ => rfl, fun _ _ => rfl⟩
  · exact ⟨_, performAccess_write_reg s .frameLen v, readReg_writeReg_frameLen s v,
      writeReg_keeps s v (by decide)⟩
  · exact ⟨_, performAccess_write_reg s .arg v, readReg_writeReg_arg s v, writeReg_keeps s v (by decide)⟩
  · refine ⟨_, performAccess_write_frame s hi v, ?_, fun k hk => ?_,
      fun q _ => readReg_setFrameByte s i v q, rfl, fun _ _ => rfl⟩
    · rw [frameByte_setFrameByte, if_pos rfl]
    · rw [frameByte_setFrameByte, if_neg (Ne.symm hk)]
  · rw [performAccess_write_reg, writeReg_of_readOnly hr]

end Sys2Proof.Machine
end

section
/-! PROOFS. The window's address decode (20_memory.md R60), the host's step, and the hold rule (R68). -/

namespace Sys2Proof.Machine

theorem sub_base_toNat {bus : Config.Bus} {addr : BitVec bus.addrWidth}
    (h : bus.base.toNat ≤ addr.toNat) : (addr - bus.base).toNat = addr.toNat - bus.base.toNat :=
  BitVec.toNat_sub_of_le (BitVec.le_def.mpr h)

/-- The window lies at `BASE` and does not wrap around the address space, since `BASE` and the space are both
multiples of its 1024 bytes (20_memory.md R60). -/
theorem sub_base_lt_iff (bus : Config.Bus) (addr : BitVec bus.addrWidth) :
    (addr - bus.base).toNat < 1024
      ↔ bus.base.toNat ≤ addr.toNat ∧ addr.toNat < bus.base.toNat + 1024 := by
  rcases le_or_gt bus.base.toNat addr.toNat with hle | hlt
  · rw [sub_base_toNat hle]; omega
  · have hsub := BitVec.toNat_sub_of_lt (BitVec.lt_def.mpr hlt)
    have hspace : 1024 ∣ 2 ^ bus.addrWidth := pow_dvd_pow 2 bus.width_ok
    have hroom : 1024 ∣ 2 ^ bus.addrWidth - bus.base.toNat :=
      Nat.dvd_sub hspace (Nat.dvd_of_mod_eq_zero bus.base_aligned)
    have hfit := Nat.le_of_dvd (Nat.sub_pos_of_lt bus.base.isLt) hroom
    omega

theorem windowOffset_eq_some_iff (bus : Config.Bus) (addr : BitVec bus.addrWidth) (off : BitVec 10) :
    windowOffset bus addr = some off ↔ addr.toNat = bus.base.toNat + off.toNat := by
  have hoff := off.isLt
  unfold windowOffset
  split
  case isTrue h =>
    obtain ⟨hle, hlt⟩ := (sub_base_lt_iff bus addr).mp h
    rw [Option.some.injEq, ← BitVec.toNat_inj, BitVec.toNat_ofNat, sub_base_toNat hle]
    omega
  case isFalse h =>
    rw [sub_base_lt_iff] at h
    simp only [reduceCtorEq, false_iff]
    omega

theorem windowOffset_eq_none {bus : Config.Bus} {addr : BitVec bus.addrWidth}
    (h : ¬ (bus.base.toNat ≤ addr.toNat ∧ addr.toNat < bus.base.toNat + 1024)) :
    windowOffset bus addr = none :=
  if_neg (mt (sub_base_lt_iff bus addr).mp h)

/-- Settles O56: the window neither overlaps nor wraps. -/
theorem windowIsDecodedExactly : Obligations.WindowIsDecodedExactly := by
  unfold Obligations.WindowIsDecodedExactly
  refine fun bus addr => ⟨windowOffset_eq_some_iff bus addr, fun access s h => ?_⟩
  rw [hostIssues, windowOffset_eq_none h]

/-! The host's step. -/

/-- No access touches the host's side. -/
theorem performAccess_keepsHost (s : State) (a : Access) : KeepsHost s (performAccess s a).1 := by
  obtain h | ⟨i, v, -, h⟩ | ⟨r, v, h⟩ := performAccess_fst_cases s a
  · rw [h]; exact ⟨rfl, rfl, rfl, rfl⟩
  · rw [h]; exact ⟨rfl, rfl, rfl, rfl⟩
  · obtain ⟨-, hw⟩ | ⟨-, hw⟩ | ⟨-, hw⟩ | hw := writeReg_cases s v r <;> rw [h, hw] <;>
      exact ⟨rfl, rfl, rfl, rfl⟩

/-- What an access does and answers does not depend on the schedule. -/
theorem performAccess_setTurns (s : State) (turns : List Turn) (a : Access) :
    performAccess { s with turns := turns } a
      = ({ (performAccess s a).1 with turns := turns }, (performAccess s a).2) := by
  cases hp : accessPlace a with
  | none => simp only [performAccess_of_no_place hp]
  | some l =>
    obtain ha | ⟨i, v, ha⟩ | ha | ⟨r, v, -, ha⟩ := performAccess_of_place hp
    · have hread : readLocation { s with turns := turns } l = readLocation s l := by
        cases l with
        | reg r => exact congrArg Reply.data32 (readReg_setHost s turns s.pending s.replies r)
        | _ => rfl
      simp only [ha, hread]
    · simp only [ha]; rfl
    · simp only [ha]
    · simp only [ha]; cases r <;> rfl

/-- With the host to move, by the schedule or by default, the step is the host's turn. -/
theorem step_of_host_to_move {s : State}
    (h : (∃ rest, s.turns = .host :: rest) ∨ (s.turns = [] ∧ s.inflight = none)) :
    step s = .next (hostTurn { s with turns := s.turns.tail }) := by
  obtain ⟨rest, ht⟩ | ⟨ht, hidle⟩ := h
  · rw [step_of_turns_cons ht, takeTurn_host, ht, List.tail_cons]
  · have hs : { s with turns := s.turns.tail } = s := by rw [ht, List.tail_nil, ← ht]
    rw [step_of_turns_nil ht, defaultTurn_of_idle hidle, takeTurn_host, hs]

/-- The host stays with an operation exactly when it is a `wait` that read `DONE` = 0 (30_encoding.md R120). -/
theorem pending_after_answer (s : State) (op : HostOp) (ops : List HostOp) :
    (if opFinished s op then ops else op :: ops)
      = if op = .wait ∧ s.status.done = false then op :: ops else ops := by
  cases op with
  | access a => simp [opFinished]
  | wait => cases hd : s.status.done <;> simp [opFinished, hd]

/-- The host's turn, with an operation that is not held, whatever turns are left (R66, R75). -/
theorem hostTurn_setTurns_answered {s : State} {op : HostOp} {ops : List HostOp} (turns : List Turn)
    (hp : s.pending = op :: ops) (hheld : held s (accessOf op) = false) :
    hostTurn { s with turns := turns } =
      { (performAccess s (accessOf op)).1 with
        turns := turns
        pending := if op = .wait ∧ s.status.done = false then op :: ops else ops
        replies := (performAccess s (accessOf op)).2 :: s.replies } := by
  rw [hostTurn_answered (s := { s with turns := turns }) hp hheld, performAccess_setTurns,
    pending_after_answer]

theorem held_eq_false_of {s : State} {a : Access} (h : s.status.busy = false ∨ a = readStatus) :
    held s a = false := by
  obtain hbusy | rfl := h
  · exact held_of_not_busy hbusy a
  · simp [held]

/-- Settles O58: the host's step is its turn, and the turn performs the operation that is not held. -/
theorem hostStepPerformsItsAccess : Obligations.HostStepPerformsItsAccess := by
  unfold Obligations.HostStepPerformsItsAccess
  refine ⟨fun s op ops hp hturn hfree => ?_, performAccess_keepsHost⟩
  rw [step_of_host_to_move hturn, hostTurn_setTurns_answered _ hp (held_eq_false_of hfree)]

/-! The hold rule. -/

theorem exec_keepsHost {i : Instr} {s t : State} (h : exec i s = .next t) : KeepsHost s t := by
  rcases exec_next h with ⟨-, rfl⟩ | ⟨_, -, rfl⟩ | ⟨-, -, rfl⟩ | ⟨-, -, rfl⟩ | ⟨-, rfl⟩
    | ⟨_, -, rfl⟩ | ⟨-, -, rfl⟩ | ⟨-, -, rfl⟩ | ⟨-, -, -, rfl⟩ | ⟨-, -, -, rfl⟩
  all_goals exact ⟨rfl, rfl, rfl, rfl⟩

/-- No command word touches the host's side. -/
theorem runCommand_keepsHost {w : Word32} {s t : State} (h : runCommand w s = .next t) : KeepsHost s t := by
  obtain ⟨i, -, he⟩ | ⟨-, rfl⟩ := runCommand_next h
  · exact exec_keepsHost he
  · exact ⟨rfl, rfl, rfl, rfl⟩

/-- While `BUSY` = 1 no other bit of `STATUS` is set (10_state.md R23, R24). -/
theorem readReg_status_of_busy {s : State} (hs : s.Inv) (hbusy : s.status.busy = true) :
    readReg s .status = 0x00000001#32 := by
  have hdone := hs.busy_not_done hbusy
  rw [readReg, statusWord, hbusy, hdone, hs.results_need_done hdone]
  decide

/-- After a completion the host's next operation is not held, and its turn performs it and goes on. -/
theorem hostTurn_after_runCommand {w : Word32} {s t : State} {op : HostOp} {ops : List HostOp}
    (hp : s.pending = op :: ops) (h : runCommand w s = .next t) :
    t.pending = op :: ops ∧ held t (accessOf op) = false
      ∧ hostTurn t =
          { (performAccess t (accessOf op)).1 with
            pending := ops, replies := (performAccess t (accessOf op)).2 :: t.replies } := by
  obtain ⟨hbusy, hdone⟩ := runCommand_status h
  have hpt : t.pending = op :: ops := (runCommand_keepsHost h).1.trans hp
  have hheld := held_of_not_busy hbusy (accessOf op)
  refine ⟨hpt, hheld, ?_⟩
  rw [hostTurn_answered hpt hheld, pending_after_answer, if_neg (by simp [hdone])]

/-- Settles O47: held operations wait, a read of `STATUS` is answered, and completion and reset clear `BUSY`. -/
theorem holdRule : Obligations.HoldRule := by
  unfold Obligations.HoldRule
  refine ⟨fun s op ops rest hbusy ht hp hop => ?_, fun s ops rest hs hbusy ht hp => ?_,
    fun w s t op ops => hostTurn_after_runCommand, fun s ops a => held_of_not_busy rfl a⟩
  · change accessOf op ≠ readStatus at hop
    have hheld : held s (accessOf op) = true := by simp [held_of_busy hbusy, hop]
    rw [step_of_turns_cons ht, takeTurn_host, hostTurn_held (s := { s with turns := rest }) hp hheld]
  · have hread : performAccess s (.read .w32 0x004#10) = (s, .data32 0x00000001#32) := by
      rw [← readReg_status_of_busy hs hbusy]; exact performAccess_readStatus s
    rw [step_of_turns_cons ht, takeTurn_host, hostTurn_setTurns_answered rest hp (held_eq_false_of (.inr rfl)),
      accessOf, hread, if_neg (by simp)]

end Sys2Proof.Machine
end

section
/-! PROOFS. The command word as its three fields (30_encoding.md R90): the encoder writes a command's fields,
and a row of the opcode map selects exactly the word that encodes its command. -/

namespace Sys2Proof

/-! A word and its fields. -/

/-- The fields of a command word (R90). -/
def wordFields (w : Word32) : CmdFields := ⟨opcField w, immField w, rsvField w⟩

/-- The command word with these fields (R90). -/
def CmdFields.word (f : CmdFields) : Word32 := f.rsv ++ f.imm8 ++ f.opc

@[simp] theorem word_wordFields (w : Word32) : (wordFields w).word = w := by
  have hhigh : rsvField w ++ immField w = w.extractLsb' 8 24 :=
    BitVec.extractLsb'_append_extractLsb'_eq_extractLsb' rfl
  have hall : w.extractLsb' 8 24 ++ opcField w = w.extractLsb' 0 32 :=
    BitVec.extractLsb'_append_extractLsb'_eq_extractLsb' rfl
  change rsvField w ++ immField w ++ opcField w = w
  rw [hhigh, hall, BitVec.extractLsb'_eq_self]

@[simp] theorem opcField_word (f : CmdFields) : opcField f.word = f.opc :=
  BitVec.extractLsb'_append_eq_right

@[simp] theorem immField_word (f : CmdFields) : immField f.word = f.imm8 := by
  rw [immField, CmdFields.word, BitVec.extractLsb'_append_eq_of_le (by decide)]
  exact BitVec.extractLsb'_append_eq_right

@[simp] theorem rsvField_word (f : CmdFields) : rsvField f.word = f.rsv := by
  rw [rsvField, CmdFields.word, BitVec.extractLsb'_append_eq_of_le (by decide)]
  exact BitVec.extractLsb'_append_eq_left

@[simp] theorem wordFields_word (f : CmdFields) : wordFields f.word = f := by
  simp [wordFields]

theorem word_eq_iff (f : CmdFields) (w : Word32) : f.word = w ↔ f = wordFields w :=
  ⟨fun h => by rw [← h, wordFields_word], fun h => by rw [h, word_wordFields]⟩

/-- `IMM8` shifted into its place beside an operation code is the word with these two fields (R90). -/
theorem or_shiftLeft_eq_word (opc b : Byte) :
    opc.setWidth 32 ||| (b.setWidth 32 <<< 8) = CmdFields.word ⟨opc, b, 0#16⟩ := by
  have hword : CmdFields.word ⟨opc, b, 0#16⟩ = (0#16 ++ b ++ opc).setWidth 32 := (BitVec.setWidth_eq _).symm
  rw [hword, BitVec.setWidth_append_append_eq_shiftLeft_setWidth_or]
  simp [BitVec.or_comm]

/-- The encoder writes the command's fields (R90, R91). -/
theorem encode_eq_word (i : Instr) : encode i = i.fields.word := by
  cases i with
  | crcByte b => exact or_shiftLeft_eq_word 0x02#8 b
  | segDecode b => exact or_shiftLeft_eq_word 0x20#8 b
  | _ => rfl

theorem encode_eq_iff (i : Instr) (w : Word32) : encode i = w ↔ i.fields = wordFields w := by
  rw [encode_eq_word, word_eq_iff]

/-! The opcode map. -/

/-- The mask of the commands that use `IMM8` clears that field alone (R91). -/
theorem and_byteMask (w : Word32) :
    w &&& 0xFFFF00FF#32 = CmdFields.word { wordFields w with imm8 := 0#8 } := by
  have hmask : 0xFFFF00FF#32 = BitVec.allOnes 16 ++ 0#8 ++ BitVec.allOnes 8 := rfl
  conv_lhs => rw [← word_wordFields w]
  rw [CmdFields.word, CmdFields.word, hmask, BitVec.and_append, BitVec.and_append, BitVec.and_zero,
    BitVec.and_allOnes, BitVec.and_allOnes]

/-- On a command that uses `IMM8` a row selects exactly the word with that field in its place (R91). -/
theorem byteRow_selects_iff (w : Word32) (opc : Byte) :
    w &&& 0xFFFF00FF#32 = CmdFields.word ⟨opc, 0#8, 0#16⟩
      ↔ (⟨opc, immField w, 0#16⟩ : CmdFields) = wordFields w := by
  rw [and_byteMask, eq_comm, word_eq_iff, wordFields_word]
  simp [wordFields]

/-- On a command that does not use `IMM8` a row selects its match word alone (R91). -/
theorem wordRow_selects_iff (w m : Word32) : w &&& 0xFFFFFFFF#32 = m ↔ m = w := by
  have hmask : 0xFFFFFFFF#32 = BitVec.allOnes 32 := rfl
  rw [hmask, BitVec.and_allOnes, eq_comm]

/-- A row selects a word exactly when the word encodes the row's command (R91). -/
theorem selects_iff_encode {r : OpcodeRow} (hr : r ∈ opcodeMap) (w : Word32) :
    w &&& r.mask = r.matchBits ↔ encode (r.command (immField w)) = w := by
  have hbyte (i : Instr) (opc : Byte) (hi : i.fields = ⟨opc, immField w, 0#16⟩) :
      w &&& 0xFFFF00FF#32 = CmdFields.word ⟨opc, 0#8, 0#16⟩ ↔ encode i = w := by
    rw [byteRow_selects_iff, encode_eq_iff, hi]
  revert r
  simp only [opcodeMap, List.forall_mem_cons]
  exact ⟨wordRow_selects_iff w _, hbyte _ 0x02#8 rfl, wordRow_selects_iff w _, wordRow_selects_iff w _,
    hbyte _ 0x20#8 rfl, wordRow_selects_iff w _, wordRow_selects_iff w _, by simp⟩

/-- Every command has a row (R91). -/
theorem exists_row (i : Instr) : ∃ r ∈ opcodeMap, r.command (immField (encode i)) = i := by
  have himm : immField (encode i) = i.fields.imm8 := by rw [encode_eq_word, immField_word]
  rw [himm]
  cases i <;> simp [opcodeMap, Instr.fields]

/-- The command of a row's operation code (R91). -/
def CmdFields.command? (f : CmdFields) : Option Instr :=
  (opcodeMap.find? fun r => opcField r.matchBits == f.opc).map (·.command f.imm8)

theorem command?_fields (i : Instr) : i.fields.command? = some i := by
  cases i <;> rfl

theorem encode_injective : Function.Injective encode := by
  intro i j h
  have hfields : i.fields = j.fields := by
    rw [encode_eq_iff, encode_eq_word, wordFields_word] at h
    exact h
  rw [← Option.some_inj, ← command?_fields, ← command?_fields, hfields]

/-- A command the decoder gives is that of a row that selects the word (R91). -/
theorem exists_row_of_decode_ok {w : Word32} {i : Instr} (h : decode w = .ok i) :
    ∃ r ∈ opcodeMap, w &&& r.mask = r.matchBits ∧ r.command (immField w) = i := by
  unfold decode at h
  split at h
  next r hrow =>
    have hsel : r.selects w = true := List.find?_some (p := fun r => OpcodeRow.selects r w) hrow
    cases h
    exact ⟨r, List.mem_of_find?_eq_some hrow, beq_iff_eq.mp hsel, rfl⟩
  next => cases h

/-- The decoder fails only where no row selects the word (R92). -/
theorem no_row_of_decode_error {w : Word32} {why : IllegalWord} (h : decode w = .error why) :
    ∀ r ∈ opcodeMap, w &&& r.mask ≠ r.matchBits := by
  unfold decode at h
  split at h
  next => cases h
  next hnone =>
    intro r hr heq
    exact List.find?_eq_none.mp hnone r hr (beq_iff_eq.mpr heq)

theorem encode_of_decode {w : Word32} {i : Instr} (h : decode w = .ok i) : encode i = w := by
  obtain ⟨r, hr, hsel, rfl⟩ := exists_row_of_decode_ok h
  exact (selects_iff_encode hr w).mp hsel

/-- The command's own row selects its word, so the decoder does not fail; and it can give no other command, for
that would have the same word. -/
theorem decode_encode (i : Instr) : decode (encode i) = .ok i := by
  obtain ⟨r, hr, hi⟩ := exists_row i
  have hsel := (selects_iff_encode hr (encode i)).mpr (congrArg encode hi)
  cases hd : decode (encode i) with
  | ok j => rw [encode_injective (encode_of_decode hd)]
  | error why => exact absurd hsel (no_row_of_decode_error hd r hr)

/-- The decoder gives a command exactly on the word that encodes it (R91, R92). -/
theorem decode_eq_ok_iff (w : Word32) (i : Instr) : decode w = .ok i ↔ encode i = w :=
  ⟨encode_of_decode, fun h => h ▸ decode_encode i⟩

/-! Illegal words. -/

theorem instr_wf (i : Instr) : i.wf = true := by
  cases i with
  | crcInit => exact Laws.IsWellFormed.crcInit
  | crcByte b => exact Laws.IsWellFormed.crcByte b
  | crcBuf => exact Laws.IsWellFormed.crcBuf
  | validate => exact Laws.IsWellFormed.validate
  | segDecode b => exact Laws.IsWellFormed.segDecode b
  | decodePayload => exact Laws.IsWellFormed.decodePayload
  | parse => exact Laws.IsWellFormed.parse

/-- The checks of R92, as it writes them. -/
theorem wf_iff (f : CmdFields) :
    f.wf = true ↔ f.opc ∈ assignedOpcodes ∧ (f.opc ∈ immOpcodes ∨ f.imm8 = 0#8) ∧ f.rsv = 0#16 := by
  simp [CmdFields.wf, CmdFields.opcAssigned, CmdFields.immAllowed, CmdFields.rsvZero, and_assoc]

/-- The legal fields are those of the commands (R91, R92). -/
theorem wf_iff_exists_fields (f : CmdFields) : f.wf = true ↔ ∃ i : Instr, i.fields = f := by
  refine ⟨fun h => ?_, fun ⟨i, hi⟩ => hi ▸ instr_wf i⟩
  obtain ⟨opc, imm, rsv⟩ := f
  obtain ⟨hopc, himm, rfl⟩ := (wf_iff _).mp h
  simp only [assignedOpcodes, List.mem_cons, List.not_mem_nil, or_false] at hopc
  have unused (hu : opc ∉ immOpcodes) : imm = 0#8 := himm.resolve_left hu
  rcases hopc with rfl | rfl | rfl | rfl | rfl | rfl | rfl
  · exact ⟨.crcInit, by rw [unused (by decide)]; rfl⟩
  · exact ⟨.crcByte imm, rfl⟩
  · exact ⟨.crcBuf, by rw [unused (by decide)]; rfl⟩
  · exact ⟨.validate, by rw [unused (by decide)]; rfl⟩
  · exact ⟨.segDecode imm, rfl⟩
  · exact ⟨.decodePayload, by rw [unused (by decide)]; rfl⟩
  · exact ⟨.parse, by rw [unused (by decide)]; rfl⟩

/-- The illegal words are those whose fields fail a check (R92). -/
theorem exists_decode_error_iff (w : Word32) :
    (∃ why, decode w = .error why) ↔
      ¬ (opcField w ∈ assignedOpcodes ∧ (opcField w ∈ immOpcodes ∨ immField w = 0#8)
        ∧ rsvField w = 0#16) := by
  have hok : (∃ i, decode w = .ok i) ↔ (wordFields w).wf = true := by
    simp only [decode_eq_ok_iff, encode_eq_iff, wf_iff_exists_fields]
  refine Iff.trans ?_ (not_congr (hok.trans (wf_iff _)))
  cases decode w <;> simp

/-- Settles O1: the word holds the command's fields, and the map is one to one. -/
theorem decodeOfEncodeIsIdentity : Obligations.DecodeOfEncodeIsIdentity := by
  unfold Obligations.DecodeOfEncodeIsIdentity
  intro i _
  refine ⟨decode_encode i, ?_⟩
  rw [encode_eq_word, opcField_word, immField_word, rsvField_word]
  exact ⟨rfl, rfl, rfl⟩

/-- Settles O2: the row that selects a word holds its command's word and nothing else. -/
theorem encodeOfDecodeIsIdentity : Obligations.EncodeOfDecodeIsIdentity := by
  unfold Obligations.EncodeOfDecodeIsIdentity
  exact fun w i h => encode_of_decode h

/-- Settles O3, row by row. -/
theorem opcodeMapSelectsByMatchAndMask : Obligations.OpcodeMapSelectsByMatchAndMask := by
  unfold Obligations.OpcodeMapSelectsByMatchAndMask
  intro w
  have row : ∀ r ∈ opcodeMap, decode w = .ok (r.command (immField w)) ↔ w &&& r.mask = r.matchBits :=
    fun r hr => (decode_eq_ok_iff _ _).trans (selects_iff_encode hr w).symm
  simp only [opcodeMap, List.forall_mem_cons] at row
  obtain ⟨h1, h2, h3, h4, h5, h6, h7, -⟩ := row
  exact ⟨h1, h2, h3, h4, h5, h6, h7⟩

/-- Settles O5. -/
theorem specWordsDecode : Obligations.SpecWordsDecode := by
  unfold Obligations.SpecWordsDecode
  exact ⟨decode_encode .crcInit, decode_encode (.crcByte 0x31#8), decode_encode .crcBuf,
    decode_encode .validate, decode_encode (.segDecode 0xDB#8), decode_encode .decodePayload,
    decode_encode .parse⟩

end Sys2Proof

namespace Sys2Proof.Machine

/-- A completion with an error code alone shows in `STATUS` alone (60_exceptions.md R241). -/
theorem endsInError_complete {code : ErrCode} {stat : Word32}
    (hstat : statusWord { busy := false, done := true, results := { err := code } } = stat) (s : State) :
    EndsInError stat s (complete s { err := code }) := by
  refine ⟨hstat, rfl, fun r hr => readReg_complete s _ ?_, fun _ => rfl, fun _ _ => rfl, rfl, rfl, rfl, rfl⟩
  simpa using hr

/-- Settles O4: the legal words are those with well-formed fields, and no illegal one reaches a meaning. -/
theorem illegalWordsRaiseIllegalCmd : Obligations.IllegalWordsRaiseIllegalCmd := by
  unfold Obligations.IllegalWordsRaiseIllegalCmd
  refine ⟨fun w => ?_, ⟨.unassignedOpcode, by decide⟩, fun w s => performAccess_write_cmd s w,
    fun w s ⟨why, hw⟩ => ⟨complete s { err := .illegalCmd }, runCommand_error hw s,
      endsInError_complete (by decide) s⟩⟩
  rw [exists_decode_error_iff, not_and_or, not_and_or, not_or]
  simp only [assignedOpcodes, immOpcodes, List.mem_cons, List.not_mem_nil, or_false, not_or]
  tauto

end Sys2Proof.Machine
end

section
/-! PROOFS. The frame of a message (30_encoding.md R110 to R114) byte by byte: the buffer holds the frame of a
message exactly when it validates, and the message is then the one PARSE reads. -/

namespace Sys2Proof.Machine

/-! The bytes of a built frame. -/

theorem length_buildFrame (type : Byte) (payload : List Byte) :
    (buildFrame type payload).length = payload.length + 6 := by
  simp [buildFrame]

/-- `FrameHolds` as one equation between lists. -/
theorem frameHolds_iff (bs : List Byte) (s : State) : FrameHolds bs s ↔ frameBytes s 0 bs.length = bs := by
  rw [FrameHolds, frameBytes_eq_map]
  constructor
  · intro h
    exact List.ext_getElem (by simp) fun i _ hi => by simp [h i hi]
  · intro h i hi
    simpa using List.getElem_of_eq h (by simpa using hi)

/-- The bytes of a frame with `p` payload bytes: the start marker, the bytes the CRC covers, the CRC, and the
end marker (R110). -/
theorem frameBytes_frame (s : State) (p : Nat) :
    frameBytes s 0 (p + 6)
      = [frameByte s 0] ++ frameBytes s 1 (p + 2)
        ++ [frameByte s (p + 3), frameByte s (p + 4), frameByte s (p + 5)] := by
  rw [show p + 6 = 1 + (p + 2) + 3 by omega, frameBytes_add, frameBytes_add]
  simp only [frameBytes, show 0 + (1 + (p + 2)) = p + 3 by omega]

/-- Two bytes give a 16-bit value exactly when they are its bytes, the more significant first (R113). -/
theorem concatBytes_eq_iff (hi lo : Byte) (c : Word16) :
    concatBytes hi lo = c ↔ hi = c.extractLsb' 8 8 ∧ lo = c.extractLsb' 0 8 := by
  constructor
  · rintro rfl
    exact ⟨BitVec.extractLsb'_append_eq_left.symm, BitVec.extractLsb'_append_eq_right.symm⟩
  · rintro ⟨rfl, rfl⟩
    have hall : c.extractLsb' 8 8 ++ c.extractLsb' 0 8 = c.extractLsb' 0 16 :=
      BitVec.extractLsb'_append_extractLsb'_eq_extractLsb' rfl
    rw [concatBytes, hall, BitVec.extractLsb'_eq_self]

/-- The buffer holds a built frame exactly when its bytes are the frame's parts, place by place (R110). -/
theorem frameHolds_buildFrame_iff (type : Byte) (payload : List Byte) (s : State) :
    FrameHolds (buildFrame type payload) s ↔
      frameByte s 0 = Config.startMarker
        ∧ frameBytes s 1 (payload.length + 2) = BitVec.ofNat 8 (payload.length + 4) :: type :: payload
        ∧ concatBytes (frameByte s (payload.length + 3)) (frameByte s (payload.length + 4))
            = crc16 (frameBytes s 1 (payload.length + 2))
        ∧ frameByte s (payload.length + 5) = Config.endMarker := by
  rw [frameHolds_iff, length_buildFrame, frameBytes_frame, buildFrame, concatBytes_eq_iff]
  constructor
  · intro h
    obtain ⟨hfront, hback⟩ := List.append_inj h (by simp)
    obtain ⟨hstart, hcovered⟩ := List.append_inj hfront rfl
    simp only [List.cons.injEq, and_true] at hstart hback
    obtain ⟨hhi, hlo, hend⟩ := hback
    rw [hcovered]
    exact ⟨hstart, rfl, ⟨hhi, hlo⟩, hend⟩
  · rintro ⟨hstart, hcovered, ⟨hhi, hlo⟩, hend⟩
    rw [hcovered] at hhi hlo
    rw [hstart, hcovered, hhi, hlo, hend]

/-! The verdict. -/

/-- When a verdict is valid (41_validator.md R167). -/
theorem validateCore_valid_iff (s : State) (n : Nat) :
    (validateCore s n).valid = true ↔
      lengthReadable n = true ∧ startOkOf s = true ∧ endOkOf s n = true ∧ lenOkOf s n = true
        ∧ rxOf s n = calcOf s n := by
  refine ⟨validateCore_valid, fun ⟨hn, hstart, hend, hlen, hcrc⟩ => ?_⟩
  simp [validateCore_of_readable hn, hstart, hend, hlen, hcrc]

/-- No frame shorter than an empty message's is valid (R114, 41_validator.md R163). -/
theorem le_of_valid {s : State} {n : Nat} (h : (validateCore s n).valid = true) : 6 ≤ n := by
  obtain ⟨-, -, -, hlen, -⟩ := validateCore_valid h
  exact ((lenOkOf_iff s n).mp hlen).1

/-- The checks on a frame with room for `p` payload bytes (41_validator.md R161 to R167). -/
theorem validateCore_valid_frame_iff (s : State) (p : Nat) :
    (validateCore s (p + 6)).valid = true ↔
      p ≤ 250 ∧ frameByte s 0 = Config.startMarker ∧ frameByte s (p + 5) = Config.endMarker
        ∧ (frameByte s 1).toNat = p + 4
        ∧ concatBytes (frameByte s (p + 3)) (frameByte s (p + 4)) = crc16 (frameBytes s 1 (p + 2)) := by
  have hread : lengthReadable (p + 6) = true ↔ p ≤ 250 := by rw [lengthReadable_iff]; omega
  have hlen : lenOkOf s (p + 6) = true ↔ (frameByte s 1).toNat = p + 4 := by rw [lenOkOf_iff]; omega
  rw [validateCore_valid_iff, hread, hlen, startOkOf, endOkOf, beq_iff_eq, beq_iff_eq]
  rfl

theorem payloadLength_toNat {s : State} {p : Nat} (h : (frameByte s 1).toNat = p + 4) :
    (payloadLength s).toNat = p := by
  have hle : 4#8 ≤ frameByte s 1 := by rw [BitVec.le_def, h]; exact Nat.le_add_left 4 p
  rw [payloadLength, BitVec.toNat_sub_of_le hle, h]
  exact Nat.add_sub_cancel p 4

/-- The buffer holds the frame of a message exactly when it is valid and PARSE reads that message in it: its
type, and the payload at the place the length field gives (R110 to R114, 41_validator.md R167). -/
theorem holdsMessage_iff (type : Byte) (payload : List Byte) (s : State) :
    HoldsMessage type payload s ↔
      (validateCore s (operandN s)).valid = true ∧ messageType s = type
        ∧ frameBytes s 3 (payloadLength s).toNat = payload := by
  rw [HoldsMessage, frameHolds_buildFrame_iff]
  constructor
  · rintro ⟨hp, hn, hstart, hcovered, hcrc, hend⟩
    simp only [frameBytes, List.cons.injEq] at hcovered
    obtain ⟨hlen, htype, hpayload⟩ := hcovered
    have hlenNat : (frameByte s 1).toNat = payload.length + 4 := by
      rw [hlen, BitVec.toNat_ofNat, Nat.mod_eq_of_lt (by omega)]
    rw [hn, validateCore_valid_frame_iff, payloadLength_toNat hlenNat]
    exact ⟨⟨hp, hstart, hend, hlenNat, hcrc⟩, htype, hpayload⟩
  · rintro ⟨hv, rfl, hpayload⟩
    obtain ⟨p, hn⟩ := Nat.exists_eq_add_of_le' (le_of_valid hv)
    rw [hn, validateCore_valid_frame_iff] at hv
    obtain ⟨hp, hstart, hend, hlenNat, hcrc⟩ := hv
    rw [payloadLength_toNat hlenNat] at hpayload
    obtain rfl : payload.length = p := by rw [← hpayload, length_frameBytes]
    have hlen : frameByte s 1 = BitVec.ofNat 8 (payload.length + 4) := by
      rw [← hlenNat, BitVec.ofNat_toNat, BitVec.setWidth_eq]
    refine ⟨hp, hn, hstart, ?_, hcrc, hend⟩
    simp only [frameBytes, hlen, hpayload, messageType]

/-- Settles O18: the checks that VALIDATE makes are the parts of a frame; the message is the one PARSE reads. -/
theorem validateAcceptsExactlyTheFrames : Obligations.ValidateAcceptsExactlyTheFrames := by
  unfold Obligations.ValidateAcceptsExactlyTheFrames
  intro s
  refine ⟨_, rfl, ?_⟩
  simp only [holdsMessage_iff, complete_status]
  exact ⟨fun h => ⟨_, _, h, rfl, rfl⟩, fun ⟨_, _, h, _⟩ => h⟩

/-! The text of a payload byte. -/

/-- The look-up table is the digits' patterns in order, and `'?'` for any other (42_decoder.md R190). -/
theorem segLut_eq_decodedChar (p : BitVec 7) : segLut p = decodedChar p := by
  by_cases hp : p ∈ digitPatterns
  · have hdigits : ∀ q ∈ digitPatterns, segLut q = decodedChar q := by decide
    exact hdigits p hp
  · have hkeys : ∀ e ∈ segTable, e.1 ∈ digitPatterns := fun _ => List.mem_map_of_mem (f := Prod.fst)
    have hnone : segTable.lookup p = none :=
      List.lookup_eq_none_iff.mpr fun e he => bne_iff_ne.mpr fun hpe => hp (hpe ▸ hkeys e he)
    rw [segLut, hnone, decodedChar, if_neg hp]
    rfl

theorem segChars_eq_decodedText (b : Byte) : segChars b = decodedText b := by
  have hpat : patternOf b = b.setWidth 7 := (BitVec.setWidth_eq_extractLsb' (by decide)).symm
  unfold segChars decodedText dpOf
  rw [segLut_eq_decodedChar, hpat]
  cases b.getLsbD 7 <;> rfl

theorem readingOf_codes (bs : List Byte) : (readingOf bs).codes = bs.flatMap decodedText :=
  congrArg bs.flatMap (funext segChars_eq_decodedText)

/-! PARSE of a built frame. -/

/-- A completed reading stands at the front of `OUT_BUF`, counted by `OUT_LEN` (42_decoder.md R193). -/
theorem complete_writeReading_reads (s : State) {cs : List Byte} (h : cs.length ≤ 512) (r : Results) :
    (complete (writeReading s cs) r).outLen.toNat = cs.length
      ∧ OutBufHolds cs (complete (writeReading s cs) r) := by
  constructor
  · rw [complete_outLen, writeReading_outLen, BitVec.toNat_ofNat, Nat.mod_eq_of_lt (by omega)]
  · intro j hj
    rw [outByte_complete, outByte_writeReading, dif_pos hj]

/-- PARSE of a valid Height frame leaves the text of the payload (42_decoder.md R205). -/
theorem parseHeight_reads {s : State} {n : Nat} (hv : (validateCore s n).valid = true) (v : Verdict) :
    (parseHeight s v).outLen.toNat
        = ((frameBytes s 3 (payloadLength s).toNat).flatMap decodedText).length
      ∧ OutBufHolds ((frameBytes s 3 (payloadLength s).toNat).flatMap decodedText) (parseHeight s v) := by
  rw [← readingOf_codes]
  refine complete_writeReading_reads _ (length_readingOf_codes_le ?_) _
  rw [length_frameBytes]
  exact (payloadLength_le hv).trans (by omega)

/-- Settles O26: a built frame is valid, and the message PARSE reads in it is the one it was built from. -/
theorem parseReadsBackBuiltFrames : Obligations.ParseReadsBackBuiltFrames := by
  unfold Obligations.ParseReadsBackBuiltFrames
  intro type payload s h
  obtain ⟨hv, rfl, rfl⟩ := (holdsMessage_iff type payload s).mp h
  have hlen := length_frameBytes s 3 (payloadLength s).toNat
  by_cases ht : messageType s = 0x12#8
  · exact ⟨_, execParse_of_height s hv ht, rfl, hlen.symm, fun _ => ⟨rfl, parseHeight_reads hv _⟩,
      fun hne => absurd ht hne⟩
  · exact ⟨_, execParse_of_unknown s hv ht, rfl, hlen.symm, fun heq => absurd heq ht,
      fun _ => ⟨rfl, rfl, rfl, fun _ _ => rfl⟩⟩

end Sys2Proof.Machine
end

section
/-! PROOFS. The life of a command (30_encoding.md R98 to R100): every step answers, the core's step completes
the command in flight, and the host's step accepts a `CMD` write or polls `STATUS`. -/

namespace Sys2Proof.Machine

/-! Every step answers a next state. -/

theorem exec_answers (i : Instr) (s : State) : ∃ t, exec i s = .next t := by
  cases i with
  | crcInit => exact ⟨_, rfl⟩
  | crcByte b => exact ⟨_, rfl⟩
  | validate => exact ⟨_, rfl⟩
  | segDecode b => exact ⟨_, rfl⟩
  | crcBuf =>
    cases hr : rangeError s with
    | true => exact ⟨_, execCrcBuf_of_range s hr⟩
    | false => exact ⟨_, execCrcBuf_of_fits s hr⟩
  | decodePayload =>
    cases hr : rangeError s with
    | true => exact ⟨_, execDecodePayload_of_range s hr⟩
    | false => exact ⟨_, execDecodePayload_of_fits s hr⟩
  | parse =>
    cases hv : (validateCore s (operandN s)).valid with
    | false => exact ⟨_, execParse_of_rejected s hv⟩
    | true =>
      by_cases ht : frameByte s 2 = 0x12#8
      · exact ⟨_, execParse_of_height s hv ht⟩
      · exact ⟨_, execParse_of_unknown s hv ht⟩

/-- Every command word answers, a legal one with its command's state and an illegal one with the error's. -/
theorem runCommand_answers (w : Word32) (s : State) : ∃ t, runCommand w s = .next t := by
  cases hw : decode w with
  | ok i => rw [runCommand_ok hw]; exact exec_answers i s
  | error why => exact ⟨_, runCommand_error hw s⟩

theorem takeTurn_answers (turn : Turn) (s : State) : ∃ t, takeTurn turn s = .next t := by
  cases turn with
  | host => exact ⟨_, takeTurn_host s⟩
  | reset ops => exact ⟨_, takeTurn_reset ops s⟩
  | core =>
    cases hw : s.inflight with
    | some w => rw [takeTurn_core hw]; exact runCommand_answers w s
    | none => exact ⟨s, by rw [takeTurn, coreTurn, hw]⟩

/-- Settles O39, by the kinds of turn: a turn of the host or of reset is total, and so is every command. -/
theorem everyStepAnswersNext : Obligations.EveryStepAnswersNext := by
  unfold Obligations.EveryStepAnswersNext
  intro s
  cases ht : s.turns with
  | cons turn rest => rw [step_of_turns_cons ht]; exact takeTurn_answers turn _
  | nil => rw [step_of_turns_nil ht]; exact takeTurn_answers _ s

/-! The core's step. -/

theorem step_of_core_turn {s : State} {w : Word32} {rest : List Turn} (hw : s.inflight = some w)
    (ht : s.turns = .core :: rest) : step s = runCommand w { s with turns := rest } := by
  rw [step_of_turns_cons ht, takeTurn_core (s := { s with turns := rest }) hw]

theorem step_of_core_default {s : State} {w : Word32} (hw : s.inflight = some w) (ht : s.turns = []) :
    step s = runCommand w s := by
  rw [step_of_turns_nil ht, defaultTurn_of_inflight hw, takeTurn_core hw]

/-- With a command in flight and the core to move, by the schedule or by default, the step runs the command. -/
theorem step_of_core_to_move {s : State} {w : Word32} (hw : s.inflight = some w)
    (h : s.turns = [] ∨ ∃ rest, s.turns = .core :: rest) :
    step s = runCommand w { s with turns := s.turns.tail } := by
  obtain ht | ⟨rest, ht⟩ := h
  · have hs : { s with turns := s.turns.tail } = s := by rw [ht, List.tail_nil, ← ht]
    rw [hs, step_of_core_default hw ht]
  · rw [step_of_core_turn hw ht, ht, List.tail_cons]

/-- Settles O42: the core's step runs the word, and the word's decoding says what that is. -/
theorem stepRunsTheDecodedCommand : Obligations.StepRunsTheDecodedCommand := by
  unfold Obligations.StepRunsTheDecodedCommand
  intro s w rest hw
  exact ⟨fun i hi => ⟨fun ht => (step_of_core_turn hw ht).trans (runCommand_ok hi _),
      fun ht => (step_of_core_default hw ht).trans (runCommand_ok hi s)⟩,
    fun why hwhy => ⟨fun ht => (step_of_core_turn hw ht).trans (runCommand_error hwhy _),
      fun ht => (step_of_core_default hw ht).trans (runCommand_error hwhy s)⟩⟩

/-- Bits 1 and 0 of `STATUS` are `DONE` and `BUSY` (10_state.md R23). -/
theorem statusWord_low (st : Status) : (statusWord st).extractLsb' 0 2 = flag st.done ++ flag st.busy := by
  have hsplit : (statusWord st).extractLsb' 1 1 ++ (statusWord st).extractLsb' 0 1
      = (statusWord st).extractLsb' 0 2 := BitVec.extractLsb'_append_extractLsb'_eq_extractLsb' rfl
  have hdone : (statusWord st).extractLsb' 1 1 = flag st.done := by
    rw [statusWord, BitVec.extractLsb'_append_eq_of_le (by decide)]
    exact BitVec.extractLsb'_append_eq_right
  have hbusy : (statusWord st).extractLsb' 0 1 = flag st.busy := BitVec.extractLsb'_append_eq_right
  rw [← hsplit, hdone, hbusy]

/-- Settles O49: the core's step is the completion of the word, which has no part in the host's side. -/
theorem completionOfCommands : Obligations.CompletionOfCommands := by
  unfold Obligations.CompletionOfCommands
  intro w s hw hturn
  obtain ⟨t, ht⟩ := runCommand_answers w { s with turns := s.turns.tail }
  obtain ⟨hbusy, hdone⟩ := runCommand_status ht
  obtain ⟨hpending, hturns, hreplies, hresets⟩ := runCommand_keepsHost ht
  have hstatus : (readReg t .status).extractLsb' 0 2 = 0x2#2 := by
    rw [readReg, statusWord_low, hbusy, hdone]; rfl
  exact ⟨t, (step_of_core_to_move hw hturn).trans ht, runCommand_inflight ht, hstatus, hpending, hreplies,
    hturns, hresets⟩

/-- While `BUSY` = 1 a turn keeps the command in flight or ends it: the host is held, and the core and reset
end it. -/
theorem takeTurn_keeps_or_ends {turn : Turn} {s t : State} (hbusy : s.status.busy = true)
    (h : takeTurn turn s = .next t) : t.inflight = s.inflight ∨ t.inflight = none := by
  obtain ⟨-, rfl⟩ | ⟨-, -, rfl⟩ | ⟨_, -, -, hrun⟩ | ⟨_, -, rfl⟩ := takeTurn_next h
  · obtain ⟨ops, replies, hhost⟩ := hostTurn_of_busy hbusy
    rw [hhost]
    exact .inl rfl
  · exact .inl rfl
  · exact .inr (runCommand_inflight hrun)
  · exact .inr rfl

/-- Settles O50: the block is busy while a command is in flight, so no turn can start another. -/
theorem oneCommandAtATime : Obligations.OneCommandAtATime := by
  unfold Obligations.OneCommandAtATime
  intro s t w hs hw h
  have hbusy : s.status.busy = true := by rw [hs.busy_eq_inflight, hw]; rfl
  rw [← hw]
  obtain ⟨_, rest, -, hturn⟩ | ⟨-, hturn⟩ := step_next h
  · exact takeTurn_keeps_or_ends (s := { s with turns := rest }) hbusy hturn
  · exact takeTurn_keeps_or_ends hbusy hturn

/-! The host's step. -/

/-- An idle block accepts a `CMD` write on the host's turn, and the host goes on (R98). -/
theorem step_accepts {s : State} {w : Word32} {ops : List HostOp} {rest : List Turn}
    (hp : s.pending = .access (.write32 0x000#10 w) :: ops) (ht : s.turns = .host :: rest)
    (hbusy : s.status.busy = false) :
    step s = .next { acceptCommand w s with turns := rest, pending := ops, replies := .ok :: s.replies } := by
  rw [step_of_turns_cons ht, takeTurn_host, hostTurn_setTurns_answered rest hp (held_of_not_busy hbusy _),
    accessOf, performAccess_write_cmd, if_neg (by simp)]

/-- Settles O48: the acceptance shows in `STATUS` alone; while busy the write is held, and the completion leaves
it the first of the host's operations. -/
theorem acceptanceOfCommands : Obligations.AcceptanceOfCommands := by
  unfold Obligations.AcceptanceOfCommands
  intro s w ops rest hp
  refine ⟨fun ht hbusy => ⟨_, step_accepts hp ht hbusy, rfl, ?_, fun r hr => ?_, fun _ => rfl,
    fun _ _ => rfl, rfl, rfl, rfl⟩, fun ht hbusy => ?_, fun v ht hv => ?_⟩
  · rw [readReg_setHost, readReg_acceptCommand_status]
  · rw [readReg_setHost, readReg_acceptCommand s w (by simpa using hr)]
  · have hheld : held s (.write32 0x000#10 w) = true := by simp [held_of_busy hbusy, readStatus]
    rw [step_of_turns_cons ht, takeTurn_host, hostTurn_held (s := { s with turns := rest }) hp hheld]
  · obtain ⟨t, hrun⟩ := runCommand_answers v { s with turns := .host :: rest }
    obtain ⟨hpending, hturns, -, -⟩ := runCommand_keepsHost hrun
    refine ⟨t, _, (step_of_core_turn hv ht).trans hrun, runCommand_inflight hrun,
      step_accepts (hpending.trans hp) hturns (runCommand_status hrun).1, rfl, ?_⟩
    rw [readReg_setHost, readReg_acceptCommand_status]

/-- Settles O57: `wait` reads `STATUS`, which is never held, and stays when it read `DONE` = 0. -/
theorem waitPollsUntilDone : Obligations.WaitPollsUntilDone := by
  unfold Obligations.WaitPollsUntilDone
  intro s ops rest ht hp
  have hstep : step s = .next { s with
      turns := rest
      pending := if s.status.done = false then .wait :: ops else ops
      replies := .data32 (readReg s .status) :: s.replies } := by
    rw [step_of_turns_cons ht, takeTurn_host, hostTurn_setTurns_answered rest hp (held_eq_false_of (.inr rfl)),
      accessOf, performAccess_readStatus]
    simp
  refine ⟨fun hdone => ?_, fun hdone => ?_⟩
  · rw [hstep, if_neg (by simp [hdone])]
  · rw [hstep, if_pos hdone, ← hp]

end Sys2Proof.Machine
end

section
/-! PROOFS. The CRC step as a map on words (40_crc.md R130, R131): every shift is linear over XOR and one to
one, and so are the step and the fold in the register. -/

namespace Sys2Proof.Machine

/-! One shift. -/

/-- What one shift XORs in after a low bit `b` (R130). -/
def crcTap (b : Bool) : Word16 := if b then Config.crcPoly else 0#16

theorem crcTap_xor (a b : Bool) : crcTap (a ^^ b) = crcTap a ^^^ crcTap b := by
  cases a <;> cases b <;> decide

theorem crcShift_eq_xor_crcTap (c : Word16) : crcShift c = (c >>> 1) ^^^ crcTap (c.getLsbD 0) := by
  unfold crcShift crcTap
  cases c.getLsbD 0
  · exact BitVec.xor_zero.symm
  · rfl

theorem crcShift_xor (c d : Word16) : crcShift (c ^^^ d) = crcShift c ^^^ crcShift d := by
  rw [crcShift_eq_xor_crcTap, crcShift_eq_xor_crcTap, crcShift_eq_xor_crcTap, BitVec.ushiftRight_xor_distrib,
    BitVec.getLsbD_xor, crcTap_xor]
  ac_rfl

/-- The top bit after a shift is the low bit before it, for the polynomial has bit 15 set. -/
theorem getLsbD_crcShift_top (c : Word16) : (crcShift c).getLsbD 15 = c.getLsbD 0 := by
  have htap : ∀ b, (crcTap b).getLsbD 15 = b := by decide
  have hshift : (c >>> 1).getLsbD 15 = false := by
    rw [BitVec.getLsbD_ushiftRight]; exact BitVec.getLsbD_of_ge c 16 (Nat.le_refl 16)
  rw [crcShift_eq_xor_crcTap, BitVec.getLsbD_xor, hshift, htap, Bool.false_xor]

/-- The top bit gives back the low bit that left, and without the polynomial the other bits stand one place
lower: no shift loses anything. -/
theorem crcShift_injective : Function.Injective crcShift := by
  intro c d h
  have hlow : c.getLsbD 0 = d.getLsbD 0 := by rw [← getLsbD_crcShift_top, h, getLsbD_crcShift_top]
  rw [crcShift_eq_xor_crcTap, crcShift_eq_xor_crcTap, hlow, BitVec.xor_left_inj] at h
  refine BitVec.eq_of_getLsbD_eq fun i _ => ?_
  cases i with
  | zero => exact hlow
  | succ j => rw [Nat.add_comm, ← BitVec.getLsbD_ushiftRight, h, BitVec.getLsbD_ushiftRight]

/-! Several shifts. -/

theorem crcShifts_eq_iterate (n : Nat) (c : Word16) : crcShifts n c = crcShift^[n] c := by
  induction n generalizing c with
  | zero => rfl
  | succ n ih => exact ih (crcShift c)

theorem crcShifts_xor (n : Nat) (c d : Word16) : crcShifts n (c ^^^ d) = crcShifts n c ^^^ crcShifts n d := by
  induction n generalizing c d with
  | zero => rfl
  | succ n ih => rw [crcShifts, crcShift_xor, ih]; rfl

theorem crcShifts_injective (n : Nat) : Function.Injective (crcShifts n) := by
  rw [funext (crcShifts_eq_iterate n)]
  exact crcShift_injective.iterate n

/-! One step. -/

theorem zext16_injective : Function.Injective zext16 :=
  Function.LeftInverse.injective (g := BitVec.setWidth 8) fun b => by
    rw [zext16, BitVec.setWidth_setWidth_of_le b (by decide), BitVec.setWidth_eq]

theorem crc16Step_xor (c d : Word16) (a b : Byte) :
    crc16Step (c ^^^ d) (a ^^^ b) = crc16Step c a ^^^ crc16Step d b := by
  have hin : (c ^^^ d) ^^^ zext16 (a ^^^ b) = (c ^^^ zext16 a) ^^^ (d ^^^ zext16 b) := by
    rw [zext16, BitVec.setWidth_xor, zext16, zext16]; ac_rfl
  rw [crc16Step, hin, crcShifts_xor]; rfl

theorem crc16Step_injective_register (b : Byte) : Function.Injective fun c => crc16Step c b :=
  fun _ _ h => (BitVec.xor_left_inj _).mp (crcShifts_injective 8 h)

theorem crc16Step_injective_byte (c : Word16) : Function.Injective (crc16Step c) :=
  fun _ _ h => zext16_injective ((BitVec.xor_right_inj _).mp (crcShifts_injective 8 h))

/-- Settles O7. -/
theorem crcStepIsLinear : Obligations.CrcStepIsLinear := by
  unfold Obligations.CrcStepIsLinear
  exact crc16Step_xor

/-- Settles O8: the eight shifts are one to one, and so is the XOR before them, in each of its operands. -/
theorem crcStepKeepsDifferences : Obligations.CrcStepKeepsDifferences := by
  unfold Obligations.CrcStepKeepsDifferences
  exact ⟨fun _ _ b => (crc16Step_injective_register b).ne, fun c _ _ => (crc16Step_injective_byte c).ne⟩

/-! The fold. -/

theorem crcFold_append (c : Word16) (xs ys : List Byte) :
    crcFold c (xs ++ ys) = crcFold (crcFold c xs) ys := List.foldl_append

theorem crcFold_injective (bs : List Byte) : Function.Injective fun c => crcFold c bs := by
  induction bs with
  | nil => exact fun _ _ h => h
  | cons b bs ih => exact ih.comp (crc16Step_injective_register b)

/-- Two sequences that differ in one byte have different CRCs (R146). -/
theorem crc16_ne_of_byte_ne {a b : Byte} (h : a ≠ b) (xs ys : List Byte) :
    crc16 (xs ++ a :: ys) ≠ crc16 (xs ++ b :: ys) := by
  rw [crc16, crc16, crcFold_append, crcFold_append]
  exact fun heq => h (crc16Step_injective_byte _ (crcFold_injective ys heq))

/-- Settles O6. -/
theorem crcAlgorithm : Obligations.CrcAlgorithm := by
  unfold Obligations.CrcAlgorithm
  exact ⟨fun c b => crcShifts_eq_iterate 8 (c ^^^ zext16 b), rfl, fun bs b => crcFold_append _ bs [b]⟩

end Sys2Proof.Machine
end

section
/-! PROOFS. The commands of the CRC engine (40_crc.md R133 to R140), with the frame and the illegal forms that
every command shares. -/

namespace Sys2Proof.Machine

/-! Every command: its frame and its illegal forms. -/

/-- A command writes its own registers and its codes in `OUT_BUF`, and nothing else. -/
theorem exec_frame {i : Instr} {s t : State} (h : exec i s = .next t) :
    Frame (writtenBy i) (codesWritten i s).length s t := by
  have hrun : runCommand (encode i) s = .next t := (runCommand_ok (decode_encode i) s).trans h
  refine ⟨runCommand_inflight hrun, exec_keepsRegsExcept h, runCommand_keepsFrameBuf hrun, fun j hj => ?_,
    exec_keepsHost h⟩
  rw [exec_outByte h, dif_neg (Nat.not_lt.mpr hj)]

/-- Set `RSV` bits, or `IMM8` bits that the operation code does not use, make a word illegal (30_encoding.md
R92). -/
theorem illegalFormsOf {opc : Byte} {usesImm : Bool} (hopc : usesImm = false → opc ∉ immOpcodes) :
    IllegalFormsOf opc usesImm := by
  intro w s hw hform
  have hillegal : ∃ why, decode w = .error why := by
    rw [exists_decode_error_iff, hw]
    rintro ⟨-, himm, hrsv⟩
    obtain hne | ⟨hunused, hne⟩ := hform
    · exact hne hrsv
    · exact hne (himm.resolve_left (hopc hunused))
  obtain ⟨why, hwhy⟩ := hillegal
  exact ⟨_, runCommand_error hwhy s, endsInError_complete (by decide) s⟩

/-! The registers of the CRC engine. -/

/-- A 16-bit value reads zero-extended. -/
theorem zero_append_eq_setWidth (c : Word16) : 0#16 ++ c = c.setWidth 32 :=
  (BitVec.setWidth_eq_append (w := 32) (by decide)).symm

/-- A completion that reports nothing leaves `STATUS` = `DONE` (10_state.md R23). -/
theorem readReg_complete_empty_status (s : State) : readReg (complete s {}) .status = 0x00000002#32 := by
  rw [readReg_complete_status]; decide

/-- The new value of `CRC`, `STATUS` and the frame, for a command that sets `CRC` and completes. -/
theorem exec_setCrc {i : Instr} {s : State} {c : Word16}
    (h : exec i s = .next (complete { s with crc := c } {})) (hw : writtenBy i = [.crc, .status])
    (hcodes : codesWritten i s = []) :
    ∃ t, exec i s = .next t ∧ readReg t .crc = c.setWidth 32 ∧ readReg t .status = 0x00000002#32
      ∧ Frame [.crc, .status] 0 s t := by
  have hframe := exec_frame h
  rw [hw, hcodes] at hframe
  exact ⟨_, h, zero_append_eq_setWidth c, readReg_complete_empty_status _, hframe⟩

/-- Settles O11. -/
theorem crcInitCommand : Obligations.CrcInitCommand := by
  unfold Obligations.CrcInitCommand
  exact ⟨decode_encode .crcInit, illegalFormsOf fun _ => by decide,
    fun _ => exec_setCrc (c := Config.crcInit) rfl rfl rfl⟩

/-- Settles O12. -/
theorem crcByteCommand : Obligations.CrcByteCommand := by
  unfold Obligations.CrcByteCommand
  exact ⟨fun b => decode_encode (.crcByte b), illegalFormsOf nofun,
    fun _ _ => exec_setCrc rfl rfl rfl, by decide, by decide⟩

/-- CRC_BUF over a range that fits (R140). -/
theorem exec_crcBuf_of_fits {s : State} (h : s.argStart.toNat + s.argCount.toNat ≤ 256) :
    exec .crcBuf s = .next (complete
      { s with crc := crc16 (bytesAt s s.argStart.toNat s.argCount.toNat) } {}) := by
  have hfits : rangeError s = false := by
    rw [← Bool.not_eq_true, rangeError_iff]; exact Nat.not_lt.mpr h
  have hbytes : rangeBytes s = bytesAt s s.argStart.toNat s.argCount.toNat := frameBytes_eq_map s _ _
  rw [← hbytes]
  exact execCrcBuf_of_fits s hfits

/-- Settles O13, by the two sides of the range check. -/
theorem crcBufCommand : Obligations.CrcBufCommand := by
  unfold Obligations.CrcBufCommand
  refine ⟨decode_encode .crcBuf, illegalFormsOf fun _ => by decide, fun s h => ?_, fun s h => ?_⟩
  · exact exec_setCrc (exec_crcBuf_of_fits h) rfl rfl
  · exact ⟨_, execCrcBuf_of_range s ((rangeError_iff s).mpr h), endsInError_complete (by decide) s⟩

/-- A stream of CRC_BYTE folds the bytes into the accumulator (R136). -/
theorem execAll_crcByte (bs : List Byte) (s : State) :
    ∃ t, execAll (bs.map .crcByte) s = .next t ∧ t.crc = crcFold s.crc bs := by
  induction bs generalizing s with
  | nil => exact ⟨s, rfl, rfl⟩
  | cons b bs ih => exact ih (complete { s with crc := crc16Step s.crc b } {})

/-- Settles O9: CRC_INIT sets the initial value, from which the stream folds as the block form does. -/
theorem streamingAgreesWithBlock : Obligations.StreamingAgreesWithBlock := by
  unfold Obligations.StreamingAgreesWithBlock
  intro bs s
  refine ⟨execAll_crcByte bs (complete { s with crc := Config.crcInit } {}), fun hfits hbytes => ?_⟩
  exact ⟨_, exec_crcBuf_of_fits hfits, by rw [complete_crc, hbytes]⟩

end Sys2Proof.Machine
end

section
/-! PROOFS. A frame with one byte changed (40_crc.md R146, 41_validator.md R167): some check of the verdict
sees the change, wherever in the frame it is. -/

namespace Sys2Proof.Machine

/-- The `FRAME_BUF` of `u` is that of `s` with another byte at index `k`. -/
structure DifferOnlyAt (k : Nat) (s u : State) : Prop where
  ne : frameByte u k ≠ frameByte s k
  eq : ∀ i, i ≠ k → frameByte u i = frameByte s i

theorem flipFrameBit_differOnlyAt (k : Nat) {b : Nat} (hb : b < 8) (s : State) :
    DifferOnlyAt k s (flipFrameBit k b s) where
  ne := by
    have hbit : ∀ b < 8, 1#8 <<< b ≠ 0#8 := by decide
    rw [flipFrameBit, frameByte_setFrameByte, if_pos rfl]
    intro h
    exact hbit b hb ((BitVec.xor_right_inj (frameByte s k)).mp (h.trans BitVec.xor_zero.symm))
  eq i hi := by rw [flipFrameBit, frameByte_setFrameByte, if_neg hi.symm]

theorem operandN_flipFrameBit (k b : Nat) (s : State) : operandN (flipFrameBit k b s) = operandN s := rfl

section Verdict

variable {k n : Nat} {s u : State}

theorem DifferOnlyAt.frameBytes_eq (h : DifferOnlyAt k s u) {start count : Nat}
    (hk : k < start ∨ start + count ≤ k) : frameBytes u start count = frameBytes s start count :=
  frameBytes_congr fun i _ _ => h.eq i (by omega)

/-- A changed byte among those the CRC covers changes the CRC (R146, R165). -/
theorem DifferOnlyAt.calcOf_ne (h : DifferOnlyAt k s u) (h1 : 1 ≤ k) (h4 : k + 4 ≤ n) :
    calcOf u n ≠ calcOf s n := by
  have hsplit (v : State) : frameBytes v 1 (n - 4)
      = frameBytes v 1 (k - 1) ++ frameByte v k :: frameBytes v (k + 1) (n - 4 - k) := by
    have hn : n - 4 = k - 1 + (n - 4 - k + 1) := by omega
    have hk : 1 + (k - 1) = k := by omega
    conv_lhs => rw [hn, frameBytes_add, hk, frameBytes]
  rw [calcOf, calcOf, hsplit, hsplit, h.frameBytes_eq (by omega), h.frameBytes_eq (by omega)]
  exact crc16_ne_of_byte_ne h.ne _ _

theorem DifferOnlyAt.calcOf_eq (h : DifferOnlyAt k s u) (hn : 4 ≤ n) (hk : k = 0 ∨ n ≤ k + 3) :
    calcOf u n = calcOf s n :=
  congrArg crc16 (h.frameBytes_eq (by omega))

theorem concatBytes_inj (a b c d : Byte) : concatBytes a b = concatBytes c d ↔ a = c ∧ b = d := by
  obtain ⟨hc, hd⟩ := (concatBytes_eq_iff c d _).mp rfl
  rw [concatBytes_eq_iff, ← hc, ← hd]

/-- A changed byte of the received CRC changes it (R164). -/
theorem DifferOnlyAt.rxOf_ne (h : DifferOnlyAt k s u) (hk : k + 3 = n ∨ k + 2 = n) :
    rxOf u n ≠ rxOf s n := by
  intro heq
  obtain ⟨hhi, hlo⟩ := (concatBytes_inj _ _ _ _).mp heq
  obtain rfl | rfl : k = n - 3 ∨ k = n - 2 := by omega
  · exact h.ne hhi
  · exact h.ne hlo

theorem DifferOnlyAt.rxOf_eq (h : DifferOnlyAt k s u) (hk : k + 4 ≤ n) : rxOf u n = rxOf s n := by
  rw [rxOf, rxOf, h.eq _ (by omega), h.eq _ (by omega)]

/-- A changed length field is not the length (R163). -/
theorem DifferOnlyAt.lenOkOf_eq_false (h : DifferOnlyAt 1 s u) (hs : lenOkOf s n = true) :
    lenOkOf u n = false := by
  rw [← Bool.not_eq_true]
  intro hu
  obtain ⟨-, hlenS⟩ := (lenOkOf_iff s n).mp hs
  obtain ⟨-, hlenU⟩ := (lenOkOf_iff u n).mp hu
  exact h.ne (BitVec.eq_of_toNat_eq (hlenU.trans hlenS.symm))

/-- No frame that differs from a valid one in one byte is valid: the byte is a marker, or one of the two CRCs
has changed and the other has not (R167). -/
theorem DifferOnlyAt.not_valid (h : DifferOnlyAt k s u) (hk : k < n)
    (hs : (validateCore s n).valid = true) : (validateCore u n).valid = false := by
  rw [← Bool.not_eq_true]
  intro hu
  have hn := le_of_valid hs
  obtain ⟨-, hstartS, hendS, -, hcrcS⟩ := validateCore_valid hs
  obtain ⟨-, hstartU, hendU, -, hcrcU⟩ := validateCore_valid hu
  simp only [startOkOf, endOkOf, beq_iff_eq] at hstartS hstartU hendS hendU
  obtain rfl | ⟨h1, h4⟩ | hrx | rfl :
      k = 0 ∨ (1 ≤ k ∧ k + 4 ≤ n) ∨ (k + 3 = n ∨ k + 2 = n) ∨ k = n - 1 := by omega
  · exact h.ne (hstartU.trans hstartS.symm)
  · exact h.calcOf_ne h1 h4 (by rw [← hcrcU, ← hcrcS, h.rxOf_eq h4])
  · exact h.rxOf_ne hrx (by rw [hcrcU, hcrcS, h.calcOf_eq (by omega) (by omega)])
  · exact h.ne (hendU.trans hendS.symm)

end Verdict

/-! The verdict of a readable length, field by field (41_validator.md R163 to R165). -/

section Readable

variable {n : Nat} (hread : lengthReadable n = true) (s : State)
include hread

theorem validateCore_lenOk : (validateCore s n).lenOk = lenOkOf s n := by
  rw [validateCore_of_readable hread]

theorem validateCore_rxCrc : (validateCore s n).rxCrc = rxOf s n := by
  rw [validateCore_of_readable hread]

theorem validateCore_calcCrc : (validateCore s n).calcCrc = calcOf s n := by
  rw [validateCore_of_readable hread]

end Readable

/-- Settles O19: a flipped bit is one changed byte. -/
theorem singleBitFlipIsRejected : Obligations.SingleBitFlipIsRejected := by
  unfold Obligations.SingleBitFlipIsRejected
  intro s t k b h hvalid hk hb
  have hdiff := flipFrameBit_differOnlyAt k hb s
  cases h
  have hs : (validateCore s (operandN s)).valid = true := hvalid
  obtain ⟨hread, -, -, hlen, -⟩ := validateCore_valid hs
  refine ⟨_, rfl, hdiff.not_valid hk hs, fun h1 h4 => ?_, fun hrx => ?_, ?_⟩
  · rw [complete_calcCrc, complete_calcCrc, writeCrcs_calcCrc, writeCrcs_calcCrc,
      operandN_flipFrameBit, validateCore_calcCrc hread, validateCore_calcCrc hread]
    exact hdiff.calcOf_ne h1 h4
  · rw [complete_rxCrc, complete_rxCrc, writeCrcs_rxCrc, writeCrcs_rxCrc,
      operandN_flipFrameBit, validateCore_rxCrc hread, validateCore_rxCrc hread]
    exact hdiff.rxOf_ne hrx
  · rintro rfl
    exact (validateCore_lenOk hread _).trans (hdiff.lenOkOf_eq_false hlen)

end Sys2Proof.Machine
end

section
/-! PROOFS. The verdict (41_validator.md R161 to R169): its four checks in the bytes of the frame, and what
VALIDATE shows of it. -/

namespace Sys2Proof.Machine

/-! The checks, as the spec writes them. -/

theorem startOkOf_iff (s : State) : startOkOf s = true ↔ frameByte s 0 = 0x9B#8 := beq_iff_eq

theorem endOkOf_iff (s : State) (n : Nat) : endOkOf s n = true ↔ frameByte s (n - 1) = 0x9D#8 := beq_iff_eq

theorem calcOf_eq_crc16_bytesAt (s : State) (n : Nat) : calcOf s n = crc16 (bytesAt s 1 (n - 4)) :=
  congrArg crc16 (frameBytes_eq_map s 1 (n - 4))

/-- The payload `FB[3 .. N-4]` of a frame that passes the length check is the one the length field gives
(R163, 30_encoding.md R111). -/
theorem payload_place_of_lenOkOf {s : State} {n : Nat} (h : lenOkOf s n = true) :
    4 ≤ (frameByte s 1).toNat ∧ 3 + ((frameByte s 1).toNat - 4) = n - 3 := by
  obtain ⟨h6, hlen⟩ := (lenOkOf_iff s n).mp h
  omega

section Readable

variable {n : Nat} (hread : lengthReadable n = true) (s : State)
include hread

theorem validateCore_startOk : (validateCore s n).startOk = startOkOf s := by
  rw [validateCore_of_readable hread]

theorem validateCore_endOk : (validateCore s n).endOk = endOkOf s n := by
  rw [validateCore_of_readable hread]

theorem validateCore_crcOk : (validateCore s n).crcOk = (rxOf s n == calcOf s n) := by
  rw [validateCore_of_readable hread]

end Readable

/-! The verdict. -/

/-- The verdict is the conjunction of the four check bits, at every length (R161, R167). -/
theorem validateCore_valid_eq_and (s : State) (n : Nat) :
    (validateCore s n).valid = ((validateCore s n).startOk && (validateCore s n).endOk
      && (validateCore s n).lenOk && (validateCore s n).crcOk) := by
  cases hread : lengthReadable n with
  | false => rw [validateCore_of_not_readable hread]; rfl
  | true => rw [validateCore_of_readable hread]

theorem validateCore_valid_iff_checks (s : State) (n : Nat) :
    (validateCore s n).valid = true ↔
      (validateCore s n).startOk = true ∧ (validateCore s n).endOk = true
        ∧ (validateCore s n).lenOk = true ∧ (validateCore s n).crcOk = true := by
  simp only [validateCore_valid_eq_and, Bool.and_eq_true, and_assoc]

/-- A frame is valid when its length field is consistent and the reference's three comparisons hold (R169). -/
theorem validateCore_valid_iff_bytes (s : State) (n : Nat) :
    (validateCore s n).valid = true ↔
      (6 ≤ n ∧ n ≤ 256 ∧ (frameByte s 1).toNat = n - 2)
        ∧ frameByte s 0 = 0x9B#8 ∧ frameByte s (n - 1) = 0x9D#8
        ∧ frameByte s (n - 3) ++ frameByte s (n - 2) = crc16 (bytesAt s 1 (n - 4)) := by
  rw [validateCore_valid_iff, lengthReadable_iff, startOkOf_iff, endOkOf_iff, lenOkOf_iff,
    calcOf_eq_crc16_bytesAt, rxOf, concatBytes]
  constructor
  · rintro ⟨⟨-, h256⟩, hstart, hend, ⟨h6, hlen⟩, hcrc⟩
    exact ⟨⟨h6, h256, hlen⟩, hstart, hend, hcrc⟩
  · rintro ⟨⟨h6, h256, hlen⟩, hstart, hend, hcrc⟩
    exact ⟨⟨by omega, h256⟩, hstart, hend, ⟨h6, hlen⟩, hcrc⟩

/-- Settles O17: each marker is one of the four checks, and every byte read lies below the length. -/
theorem validationIsPureGate : Obligations.ValidationIsPureGate := by
  unfold Obligations.ValidationIsPureGate
  refine ⟨fun s n hmarker => ?_, fun _ _ _ => validateCore_congr⟩
  rw [← Bool.not_eq_true, validateCore_valid_iff_checks]
  rintro ⟨hstart, hend, -, -⟩
  simp [hstart, hend] at hmarker

/-- Settles O14. -/
theorem verdictOutsideLengthDomain : Obligations.VerdictOutsideLengthDomain := by
  unfold Obligations.VerdictOutsideLengthDomain
  intro s n hn
  have hread : lengthReadable n = false := by
    rw [← Bool.not_eq_true, lengthReadable_iff]; omega
  rw [validateCore_of_not_readable hread]
  exact ⟨rfl, rfl, rfl, rfl, rfl, rfl, rfl⟩

/-- Settles O15, field by field; `CRC` is no byte of the frame. -/
theorem verdictInsideLengthDomain : Obligations.VerdictInsideLengthDomain := by
  unfold Obligations.VerdictInsideLengthDomain
  intro s n h4 h256
  have hread : lengthReadable n = true := (lengthReadable_iff n).mpr ⟨h4, h256⟩
  have hlenOk := validateCore_lenOk hread s
  have hrx := validateCore_rxCrc hread s
  have hcalc := validateCore_calcCrc hread s
  refine ⟨?_, ?_, ?_, fun h => payload_place_of_lenOkOf (hlenOk ▸ h), hrx,
    hcalc.trans (calcOf_eq_crc16_bytesAt s n), ?_, validateCore_valid_iff_checks s n,
    fun _ => validateCore_congr fun _ _ => rfl⟩
  · rw [validateCore_startOk hread, startOkOf_iff]
  · rw [validateCore_endOk hread, endOkOf_iff]
  · rw [hlenOk, lenOkOf_iff]
  · rw [validateCore_crcOk hread, hrx, hcalc, beq_iff_eq]

/-- Settles O20. -/
theorem verdictAgainstReference : Obligations.VerdictAgainstReference := by
  unfold Obligations.VerdictAgainstReference
  refine fun s n => ⟨fun h6 h256 hlen => ?_, fun hinconsistent => ?_⟩
  · rw [validateCore_valid_iff_bytes]
    exact and_iff_right ⟨h6, h256, hlen⟩
  · rw [← Bool.not_eq_true, validateCore_valid_iff_bytes]
    exact fun ⟨hconsistent, _⟩ => hinconsistent hconsistent

/-! VALIDATE. -/

/-- `STATUS` after a completion that reports the four checks and a `RESULT` (R160, 10_state.md R23). -/
theorem readReg_complete_checkResults_status (s : State) (v : Verdict) (result : Bool) :
    readReg (complete s { checkResults v with result := result }) .status
      = 0x00000002#32 ||| bitAt result 2 ||| checkBits v := by
  have hbits : ∀ result startOk endOk lenOk crcOk : Bool,
      statusWord { busy := false, done := true, results := { result, startOk, endOk, lenOk, crcOk } }
        = 0x00000002#32 ||| bitAt result 2
          ||| (bitAt startOk 3 ||| bitAt endOk 4 ||| bitAt lenOk 5 ||| bitAt crcOk 6) := by
    decide
  exact hbits result v.startOk v.endOk v.lenOk v.crcOk

/-- Settles O16. -/
theorem validateCommand : Obligations.ValidateCommand := by
  unfold Obligations.ValidateCommand
  refine ⟨decode_encode .validate, illegalFormsOf fun _ => by decide, fun s => ⟨_, rfl, ?_, ?_, ?_, ?_⟩⟩
  · exact zero_append_eq_setWidth _
  · exact zero_append_eq_setWidth _
  · exact readReg_complete_checkResults_status _ _ _
  · exact exec_frame (i := .validate) rfl

end Sys2Proof.Machine
end

section
/-! PROOFS. The seven-segment decoder (42_decoder.md R190 to R200): a payload byte's text and flag, the reading
of a run, and what SEG_DECODE and DECODE_PAYLOAD show of them. -/

namespace Sys2Proof.Machine

/-! A payload byte and a run, in the words of the statements. -/

theorem patternOf_eq_setWidth (b : Byte) : patternOf b = b.setWidth 7 :=
  (BitVec.setWidth_eq_extractLsb' (by decide)).symm

/-- The patterns in the look-up table are the digits' (R190). -/
theorem recognised_eq_decide (p : BitVec 7) : recognised p = decide (p ∈ digitPatterns) := by
  have hkeys : digitPatterns = segTable.map Prod.fst := rfl
  rw [Bool.eq_iff_iff, decide_eq_true_eq, recognised, List.lookup_isSome_iff, hkeys, List.mem_map]
  simp only [beq_iff_eq, eq_comm (a := p)]

theorem segUnrec_eq_unrecognised (b : Byte) : segUnrec b = unrecognised b := by
  rw [segUnrec, recognised_eq_decide, patternOf_eq_setWidth, unrecognised, decide_not]

theorem readingOf_unrecAny (bs : List Byte) : (readingOf bs).unrecAny = bs.any unrecognised :=
  congrArg bs.any (funext segUnrec_eq_unrecognised)

theorem frameBytes_eq_bytesAt (s : State) (start count : Nat) :
    frameBytes s start count = bytesAt s start count := frameBytes_eq_map s start count

/-- Settles O23: a byte's text has one or two codes, and the bytes of the run are those of its parts. -/
theorem decodeRunBoundsAndConcatenation : Obligations.DecodeRunBoundsAndConcatenation := by
  unfold Obligations.DecodeRunBoundsAndConcatenation
  intro s base m n
  obtain ⟨hlower, hupper⟩ := length_flatMap_segChars (frameBytes s base m)
  rw [length_frameBytes] at hlower hupper
  simp only [decodeRun, readingOf, frameBytes_add, List.flatMap_append, List.any_append]
  exact ⟨hlower, hupper, trivial, trivial⟩

/-! The registers. -/

theorem readReg_msgType (s : State) : readReg s .msgType = s.msgType.setWidth 32 :=
  (BitVec.setWidth_eq_append (by decide)).symm

theorem readReg_payLen (s : State) : readReg s .payLen = BitVec.ofNat 32 s.payLen.toNat :=
  (BitVec.setWidth_eq_append (by decide)).symm.trans (BitVec.ofNat_toNat 32 s.payLen).symm

theorem readReg_outLen (s : State) : readReg s .outLen = BitVec.ofNat 32 s.outLen.toNat :=
  (BitVec.setWidth_eq_append (by decide)).symm.trans (BitVec.ofNat_toNat 32 s.outLen).symm

/-- `SEG_OUT` as its three fields in their places (10_state.md R33). -/
theorem segOutWord_eq_or (o : SegOut) :
    segOutWord o = o.char.setWidth 32 ||| bitAt o.dp 8 ||| bitAt o.unrec 9 := by
  have hflags : ∀ dp unrec : Bool,
      (0#22 ++ flag unrec ++ flag dp).setWidth 32 <<< 8 = bitAt dp 8 ||| bitAt unrec 9 := by decide
  rw [BitVec.or_assoc, ← hflags, BitVec.or_comm]
  exact (BitVec.setWidth_eq _).symm.trans BitVec.setWidth_append_eq_shiftLeft_setWidth_or

/-- `STATUS` after a completion that reports the decoder's two diagnostics (10_state.md R23). -/
theorem readReg_complete_diagnostics_status (s : State) (empty unrec : Bool) :
    readReg (complete s { emptyPayload := empty, unrecSeen := unrec }) .status
      = 0x00000002#32 ||| bitAt empty 9 ||| bitAt unrec 10 := by
  have hbits : ∀ empty unrec : Bool,
      statusWord { busy := false, done := true, results := { emptyPayload := empty, unrecSeen := unrec } }
        = 0x00000002#32 ||| bitAt empty 9 ||| bitAt unrec 10 := by
    decide
  exact hbits empty unrec

/-! SEG_DECODE and DECODE_PAYLOAD. -/

/-- Settles O21. -/
theorem segDecodeCommand : Obligations.SegDecodeCommand := by
  unfold Obligations.SegDecodeCommand
  refine ⟨fun b => decode_encode (.segDecode b), illegalFormsOf nofun, segLut_eq_decodedChar,
    fun b => ⟨segChars_eq_decodedText b, segUnrec_eq_unrecognised b⟩, fun s b => ⟨_, rfl, ?_, ?_, ?_⟩⟩
  · rw [← segUnrec_eq_unrecognised, ← segLut_eq_decodedChar, ← patternOf_eq_setWidth]
    exact segOutWord_eq_or _
  · rw [← segUnrec_eq_unrecognised]
    exact readReg_complete_diagnostics_status _ false _
  · exact exec_frame (i := .segDecode b) rfl

/-- A command that completes with its codes as a reading shows them at the front of `OUT_BUF`, their number in
`OUT_LEN`, and changes no byte past them (R193, R200). -/
theorem exec_shows_reading {i : Instr} {s u : State} {cs : List Byte} {r : Results}
    (h : exec i s = .next (complete (writeReading u cs) r)) (hcs : codesWritten i s = cs) :
    OutBufHolds cs (complete (writeReading u cs) r)
      ∧ readReg (complete (writeReading u cs) r) .outLen = BitVec.ofNat 32 cs.length
      ∧ Frame (writtenBy i) cs.length s (complete (writeReading u cs) r) := by
  have hframe := exec_frame h
  have hle := length_codesWritten_le i s
  rw [hcs] at hframe hle
  obtain ⟨hcount, hcodes⟩ := complete_writeReading_reads u hle r
  exact ⟨hcodes, by rw [readReg_outLen, hcount], hframe⟩

/-- Settles O22, by the two sides of the range check. -/
theorem decodePayloadCommand : Obligations.DecodePayloadCommand := by
  unfold Obligations.DecodePayloadCommand
  refine ⟨decode_encode .decodePayload, illegalFormsOf fun _ => by decide, fun s h => ?_, fun s h => ?_⟩
  · have hfits : rangeError s = false := by
      rw [← Bool.not_eq_true, rangeError_iff]; exact Nat.not_lt.mpr h
    have hrun : exec .decodePayload s = _ := execDecodePayload_of_fits s hfits
    have hcodes : codesWritten .decodePayload s = (readingOf (rangeBytes s)).codes :=
      if_neg (Bool.eq_false_iff.mp hfits)
    obtain ⟨hreading, hcount, hframe⟩ := exec_shows_reading hrun hcodes
    rw [← frameBytes_eq_bytesAt, ← readingOf_codes, ← readingOf_unrecAny]
    exact ⟨_, hrun, hreading, hcount, readReg_complete_diagnostics_status _ _ _, hframe⟩
  · exact ⟨_, execDecodePayload_of_range s ((rangeError_iff s).mpr h), endsInError_complete (by decide) s⟩

end Sys2Proof.Machine
end

section
/-! PROOFS. PARSE (42_decoder.md R205 to R211): what a valid verdict says of the checks and of the payload, and
the three ways PARSE completes. -/

namespace Sys2Proof.Machine

/-! A valid frame. -/

/-- A valid verdict reports all four checks (41_validator.md R167). -/
theorem checkResults_of_valid {s : State} {n : Nat} (hv : (validateCore s n).valid = true) :
    checkResults (validateCore s n) = { startOk := true, endOk := true, lenOk := true, crcOk := true } := by
  obtain ⟨hstart, hend, hlen, hcrc⟩ := validateCore_checks hv
  rw [checkResults, hstart, hend, hlen, hcrc]

/-- The length field of a valid frame counts four bytes beside the payload (30_encoding.md R111). -/
theorem lengthField_of_valid {s : State} {n : Nat} (hv : (validateCore s n).valid = true) :
    (frameByte s 1).toNat = (payloadLength s).toNat + 4 := by
  obtain ⟨-, -, -, hlen, -⟩ := validateCore_valid hv
  obtain ⟨p, hp⟩ := Nat.exists_eq_add_of_le' (payload_place_of_lenOkOf hlen).1
  rw [payloadLength_toNat hp, hp]

/-- The payload of a valid frame is empty when the length field is 4 (30_encoding.md R111). -/
theorem payloadLength_beq_zero_of_valid {s : State} {n : Nat} (hv : (validateCore s n).valid = true) :
    (payloadLength s == 0#8) = decide ((frameByte s 1).toNat = 4) := by
  rw [Bool.eq_iff_iff, beq_iff_eq, decide_eq_true_eq, ← BitVec.toNat_inj, lengthField_of_valid hv]
  exact Nat.add_eq_right.symm

theorem payloadReading_codes (s : State) :
    (payloadReading s).codes = (bytesAt s 3 (payloadLength s).toNat).flatMap decodedText := by
  rw [← frameBytes_eq_bytesAt, ← readingOf_codes]; rfl

theorem payloadReading_unrecAny (s : State) :
    (payloadReading s).unrecAny = (bytesAt s 3 (payloadLength s).toNat).any unrecognised := by
  rw [← frameBytes_eq_bytesAt, ← readingOf_unrecAny]; rfl

/-! `STATUS` after PARSE of a valid frame (R205, 10_state.md R23). -/

theorem readReg_parseHeight_status {s : State} {n : Nat} (hv : (validateCore s n).valid = true) :
    readReg (parseHeight s (validateCore s n)) .status
      = 0x000000FE#32 ||| bitAt (payloadLength s == 0#8) 9 ||| bitAt (payloadReading s).unrecAny 10 := by
  have hbits : ∀ empty unrec : Bool,
      statusWord { busy := false, done := true, results :=
        { result := true, startOk := true, endOk := true, lenOk := true, crcOk := true, height := true,
          emptyPayload := empty, unrecSeen := unrec } }
        = 0x000000FE#32 ||| bitAt empty 9 ||| bitAt unrec 10 := by
    decide
  rw [parseHeight, readReg_complete_status, checkResults_of_valid hv]
  exact hbits _ _

theorem readReg_parseUnknown_status {s : State} {n : Nat} (hv : (validateCore s n).valid = true) :
    readReg (parseUnknown s (validateCore s n)) .status = 0x0000017A#32 := by
  rw [parseUnknown, readReg_complete_status, checkResults_of_valid hv]
  decide

/-! The command. -/

/-- Settles O24, by the three ways PARSE completes. -/
theorem parseCommand : Obligations.ParseCommand := by
  unfold Obligations.ParseCommand
  refine ⟨decode_encode .parse, illegalFormsOf fun _ => by decide, fun s => ?_⟩
  obtain ⟨t, h⟩ := exec_answers .parse s
  have hframe := exec_frame h
  rw [← operandN]
  obtain ⟨hv, rfl⟩ | ⟨hv, htype, rfl⟩ | ⟨hv, htype, rfl⟩ := execParse_next h
  · have hnone : codesWritten .parse s = [] := if_neg fun hgate => Bool.eq_false_iff.mp hv hgate.1
    rw [hnone] at hframe
    refine ⟨_, h, zero_append_eq_setWidth _, zero_append_eq_setWidth _, fun _ => ?_,
      fun hvalid => absurd hvalid (Bool.eq_false_iff.mp hv),
      fun hvalid => absurd hvalid (Bool.eq_false_iff.mp hv)⟩
    exact ⟨readReg_msgType _, readReg_payLen _, readReg_outLen _,
      readReg_complete_checkResults_status _ _ false, hframe⟩
  · have hcodes : codesWritten .parse s = (payloadReading s).codes := if_pos ⟨hv, htype⟩
    obtain ⟨hreading, hcount, hframe⟩ := exec_shows_reading h hcodes
    refine ⟨_, h, zero_append_eq_setWidth _, zero_append_eq_setWidth _,
      fun hinvalid => absurd hv (Bool.eq_false_iff.mp hinvalid), fun _ _ => ?_,
      fun _ hne => absurd htype hne⟩
    rw [← payloadLength_beq_zero_of_valid hv, lengthField_of_valid hv, Nat.add_sub_cancel,
      ← payloadReading_codes, ← payloadReading_unrecAny]
    exact ⟨(readReg_msgType _).trans (congrArg _ htype), readReg_payLen _, hreading, hcount,
      readReg_parseHeight_status hv, hframe⟩
  · have hnone : codesWritten .parse s = [] := if_neg fun hgate => htype hgate.2
    rw [hnone] at hframe
    refine ⟨_, h, zero_append_eq_setWidth _, zero_append_eq_setWidth _,
      fun hinvalid => absurd hv (Bool.eq_false_iff.mp hinvalid), fun _ heq => absurd heq htype,
      fun _ _ => ?_⟩
    rw [lengthField_of_valid hv, Nat.add_sub_cancel]
    exact ⟨readReg_msgType _, readReg_payLen _, readReg_outLen _,
      readReg_parseUnknown_status hv, hframe⟩

/-- Settles O25: only a valid Height frame gives PARSE codes to write. -/
theorem parseSingleGate : Obligations.ParseSingleGate := by
  unfold Obligations.ParseSingleGate
  refine fun s t h => ⟨fun hinvalid => ?_, fun j hj => ?_⟩
  · obtain rfl : parseRejected s _ = t :=
      Host.Outcome.next.inj ((execParse_of_rejected s hinvalid).symm.trans h)
    exact ⟨fun _ _ => rfl, rfl, rfl, rfl⟩
  · by_contra hgate
    have hnone : codesWritten .parse s = [] := if_neg hgate
    exact hj (by rw [exec_outByte h, hnone]; rfl)

/-- Settles O27. -/
theorem unknownTypeIsFailure : Obligations.UnknownTypeIsFailure := by
  unfold Obligations.UnknownTypeIsFailure
  exact fun s hv htype => ⟨_, execParse_of_unknown s hv htype, rfl, rfl⟩

/-- Settles O28: the frame of the empty payload is a valid Height frame whose payload has no byte. -/
theorem emptyHeightPayloadIsSuccess : Obligations.EmptyHeightPayloadIsSuccess := by
  unfold Obligations.EmptyHeightPayloadIsSuccess
  intro s h
  obtain ⟨hv, htype, hpayload⟩ := (holdsMessage_iff 0x12#8 [] s).mp h
  have hzero : (payloadLength s).toNat = 0 := by
    rw [← length_frameBytes s 3 (payloadLength s).toNat, hpayload]; rfl
  refine ⟨_, execParse_of_height s hv htype, rfl, ?_, beq_iff_eq.mpr (BitVec.eq_of_toNat_eq hzero), rfl⟩
  exact BitVec.eq_of_toNat_eq (by rw [(parseHeight_reads hv _).1, hpayload]; rfl)

end Sys2Proof.Machine
end

section
/-! PROOFS. The error codes (60_exceptions.md R240 to R244): an illegal word raises `ILLEGAL_CMD`, a range
command past 256 raises `RANGE`, and every other command word ends with no code. -/

namespace Sys2Proof.Machine

/-! Which code a command ends with. -/

/-- A range command whose range does not fit into `FRAME_BUF` (R243). -/
def OutOfRange (i : Instr) (s : State) : Prop :=
  (i = .crcBuf ∨ i = .decodePayload) ∧ 256 < s.argStart.toNat + s.argCount.toNat

/-- Such a command completes with `RANGE` alone (R241, R243). -/
theorem exec_of_outOfRange {i : Instr} {s : State} (h : OutOfRange i s) :
    exec i s = .next (complete s { err := .range }) := by
  obtain ⟨rfl | rfl, hsum⟩ := h
  · exact execCrcBuf_of_range s ((rangeError_iff s).mpr hsum)
  · exact execDecodePayload_of_range s ((rangeError_iff s).mpr hsum)

/-- Of the ways a command completes only the failed range check reports an error code (R240). -/
theorem exec_err_of_not_outOfRange {i : Instr} {s t : State} (h : exec i s = .next t)
    (hrange : ¬OutOfRange i s) : t.status.results.err = .none := by
  rcases exec_next h with ⟨-, rfl⟩ | ⟨_, -, rfl⟩ | ⟨hi, hr, -⟩ | ⟨-, -, rfl⟩ | ⟨-, rfl⟩ | ⟨_, -, rfl⟩
    | ⟨-, -, rfl⟩ | ⟨-, -, rfl⟩ | ⟨-, -, -, rfl⟩ | ⟨-, -, -, rfl⟩
  case inr.inr.inl => exact absurd ⟨hi, (rangeError_iff s).mp hr⟩ hrange
  all_goals rfl

/-- A command ends with `RANGE` and no other effect when its range does not fit, and else with no code. -/
theorem exec_err_cases {i : Instr} {s t : State} (h : exec i s = .next t) :
    (OutOfRange i s ∧ t = complete s { err := .range })
      ∨ (¬OutOfRange i s ∧ t.status.results.err = .none) := by
  by_cases hrange : OutOfRange i s
  · exact .inl ⟨hrange, Host.Outcome.next.inj (h.symm.trans (exec_of_outOfRange hrange))⟩
  · exact .inr ⟨hrange, exec_err_of_not_outOfRange h hrange⟩

/-- The field `ERR` of `STATUS`, bits 12 to 15 (10_state.md R23). -/
theorem readReg_status_err (s : State) :
    (readReg s .status).extractLsb' 12 4 = errBits s.status.results.err := by
  rw [readReg, statusWord]
  simp (disch := decide) only [BitVec.extractLsb'_append_eq_of_le]
  exact BitVec.extractLsb'_append_eq_right

/-! The obligations. -/

/-- Settles O32: each of the two codes is raised by a completion that writes `STATUS` alone. -/
theorem errorsArePrecise : Obligations.ErrorsArePrecise := by
  unfold Obligations.ErrorsArePrecise
  intro w s t h herr
  obtain ⟨i, -, he⟩ | ⟨-, rfl⟩ := runCommand_next h
  · obtain ⟨-, rfl⟩ | ⟨-, hnone⟩ := exec_err_cases he
    · exact .inr ⟨rfl, endsInError_complete (by decide) s⟩
    · exact absurd hnone herr
  · exact .inl ⟨rfl, endsInError_complete (by decide) s⟩

/-- Settles O33: an illegal word reaches no range check, and a legal one raises `RANGE` or no code. -/
theorem errorCodeCauses : Obligations.ErrorCodeCauses := by
  unfold Obligations.ErrorCodeCauses
  intro w s
  obtain ⟨t, h⟩ := runCommand_answers w s
  refine ⟨t, h, ?_⟩
  rw [readReg_status_err]
  cases hw : decode w with
  | error why =>
    obtain rfl := Host.Outcome.next.inj ((runCommand_error hw s).symm.trans h)
    simp [errBits]
  | ok i =>
    obtain ⟨hrange, rfl⟩ | ⟨hfits, hnone⟩ := exec_err_cases ((runCommand_ok hw s).symm.trans h)
    · simpa [errBits, OutOfRange] using hrange
    · simpa [errBits, hnone, OutOfRange] using hfits

/-- Settles O34: the bound is that of two 9-bit values, and the range check reads `ARG` alone. -/
theorem rangeErrorReadsNoFrameByte : Obligations.RangeErrorReadsNoFrameByte := by
  unfold Obligations.RangeErrorReadsNoFrameByte
  intro i s hi
  refine ⟨by omega, fun hsum => ⟨_, exec_of_outOfRange ⟨hi, hsum⟩, endsInError_complete (by decide) s, ?_⟩⟩
  exact fun m => exec_of_outOfRange (s := { s with frameBuf := m }) ⟨hi, hsum⟩

end Sys2Proof.Machine
end

section
/-! PROOFS. Reset (70_reset_and_hazards.md R270 to R274) and the hazards (R280 to R284): what VALIDATE and PARSE
do not read, the CRC of two messages, and the end of every accepted command. -/

namespace Sys2Proof.Machine

/-! Reset. -/

/-- Settles O40. -/
theorem invariantAtReset : Obligations.InvariantAtReset := inv_reset

theorem readReg_reset_crc : readReg State.reset .crc = 0x0000FFFF#32 := by decide

/-- After power-on every register but `CRC` reads 0 (R270). -/
theorem readReg_reset_of_ne_crc {r : Reg} (hr : r ≠ .crc) : readReg State.reset r = 0x00000000#32 := by
  cases r with
  | crc => exact absurd rfl hr
  | _ => rfl

/-- A reset gives the registers of power-on (R274). -/
theorem readReg_resetBlock (ops : List HostOp) (s : State) (r : Reg) :
    readReg (resetBlock ops s) r = readReg State.reset r := by
  cases r <;> rfl

/-- Settles O53: the step of a reset turn is the reset. -/
theorem resetFromAnyState : Obligations.ResetFromAnyState := by
  unfold Obligations.ResetFromAnyState
  intro s ops rest ht
  refine ⟨resetBlock ops { s with turns := rest }, ?_, ?_, fun r hr => ?_,
    fun r => (readReg_resetBlock ops _ r).symm, rfl, rfl, rfl, rfl, rfl⟩
  · rw [step_of_turns_cons ht, takeTurn_reset]
  · rw [readReg_resetBlock, readReg_reset_crc]
  · rw [readReg_resetBlock, readReg_reset_of_ne_crc hr]

/-- A buffer with no byte written holds the draw (R270). -/
theorem Memory.byteAt_nil (buf : Buffer) (k i : Nat) :
    Memory.byteAt buf k [] i = Config.bufResetContent buf k i := rfl

/-- Settles O54: a reset leaves no byte of a buffer written. -/
theorem buffersHoldTheDrawAfterReset : Obligations.BuffersHoldTheDrawAfterReset := by
  unfold Obligations.BuffersHoldTheDrawAfterReset
  exact fun s ops i => ⟨Memory.byteAt_nil .frame _ i, Memory.byteAt_nil .out _ i,
    Memory.byteAt_nil .frame 0 i, Memory.byteAt_nil .out 0 i⟩

/-! What VALIDATE and PARSE do not read. -/

/-- The state with other contents of `CRC` and `FRAME_BUF`. -/
def withCrcAndFrame (c : Word16) (m : Memory) (s : State) : State := { s with crc := c, frameBuf := m }

/-- The payload of a valid frame ends three bytes before the frame does (30_encoding.md R110). -/
theorem payload_end_of_valid {s : State} {n : Nat} (hv : (validateCore s n).valid = true) :
    3 + (payloadLength s).toNat + 3 = n := by
  obtain ⟨-, -, -, hlen, -⟩ := validateCore_valid hv
  obtain ⟨h6, hfield⟩ := (lenOkOf_iff s n).mp hlen
  have hcount := lengthField_of_valid hv
  omega

section WithCrcAndFrame

variable {s : State} {m : Memory}
  (hm : ∀ k, k < s.frameLen.toNat → frameByte { s with frameBuf := m } k = frameByte s k) (c : Word16)
include hm

theorem validateCore_withCrcAndFrame :
    validateCore (withCrcAndFrame c m s) (operandN (withCrcAndFrame c m s)) = validateCore s (operandN s) :=
  validateCore_congr hm

/-- Of a valid frame the type lies below `FRAME_LEN.N`. -/
theorem messageType_withCrcAndFrame (hv : (validateCore s (operandN s)).valid = true) :
    messageType (withCrcAndFrame c m s) = messageType s :=
  hm 2 (Nat.lt_of_lt_of_le (by decide) (le_of_valid hv))

/-- Of a valid frame the length field lies below `FRAME_LEN.N`. -/
theorem payloadLength_withCrcAndFrame (hv : (validateCore s (operandN s)).valid = true) :
    payloadLength (withCrcAndFrame c m s) = payloadLength s :=
  congrArg (· - 4#8) (hm 1 (Nat.lt_of_lt_of_le (by decide) (le_of_valid hv)))

/-- Of a valid frame the payload lies below `FRAME_LEN.N`. -/
theorem payloadReading_withCrcAndFrame (hv : (validateCore s (operandN s)).valid = true) :
    payloadReading (withCrcAndFrame c m s) = payloadReading s := by
  have hend : 3 + (payloadLength s).toNat + 3 = s.frameLen.toNat := payload_end_of_valid hv
  rw [payloadReading, payloadReading, payloadLength_withCrcAndFrame hm c hv]
  exact congrArg readingOf (frameBytes_congr fun k _ hk => hm k (by omega))

/-- With another `CRC` and other bytes at `FRAME_LEN.N` or above, VALIDATE and PARSE answer the same state but for
these, which they leave (R280, R284). -/
theorem exec_withCrcAndFrame {i : Instr} {t : State} (hi : i = .validate ∨ i = .parse)
    (h : exec i s = .next t) : exec i (withCrcAndFrame c m s) = .next (withCrcAndFrame c m t) := by
  have hcore := validateCore_withCrcAndFrame hm c
  obtain rfl | rfl := hi
  · cases h
    rw [exec, execValidate, hcore]; rfl
  · obtain ⟨hv, rfl⟩ | ⟨hv, htype, rfl⟩ | ⟨hv, htype, rfl⟩ := execParse_next h
    · refine (execParse_of_rejected _ (by rw [hcore, hv])).trans ?_
      rw [hcore]; rfl
    · have hmsg := messageType_withCrcAndFrame hm c hv
      refine (execParse_of_height _ (by rw [hcore, hv]) (hmsg.trans htype)).trans ?_
      rw [hcore, parseHeight, hmsg, payloadLength_withCrcAndFrame hm c hv,
        payloadReading_withCrcAndFrame hm c hv]
      rfl
    · have hmsg := messageType_withCrcAndFrame hm c hv
      refine (execParse_of_unknown _ (by rw [hcore, hv]) (hmsg.trans_ne htype)).trans ?_
      rw [hcore, parseUnknown, hmsg, payloadLength_withCrcAndFrame hm c hv]
      rfl

end WithCrcAndFrame

/-- VALIDATE and PARSE keep `CRC` and the contents of `FRAME_BUF`. -/
theorem exec_keepsCrcAndFrame {i : Instr} {s t : State} (hi : i = .validate ∨ i = .parse)
    (h : exec i s = .next t) : t.crc = s.crc ∧ t.frameBuf = s.frameBuf := by
  obtain rfl | rfl := hi
  · cases h
    exact ⟨rfl, rfl⟩
  · obtain ⟨-, rfl⟩ | ⟨-, -, rfl⟩ | ⟨-, -, rfl⟩ := execParse_next h <;> exact ⟨rfl, rfl⟩

/-- Settles O31: of `FRAME_BUF` the two commands read the frame's own bytes. -/
theorem bytesPastTheFrameAreNotRead : Obligations.BytesPastTheFrameAreNotRead := by
  unfold Obligations.BytesPastTheFrameAreNotRead
  intro i s m hi hm
  obtain ⟨t, h⟩ := exec_answers i s
  have hother := exec_withCrcAndFrame hm s.crc hi h
  have hkept : withCrcAndFrame s.crc m t = { t with frameBuf := m } := by
    rw [← (exec_keepsCrcAndFrame hi h).1]; rfl
  exact ⟨t, h, by rw [← hkept]; exact hother⟩

/-- Settles O30: PARSE ends with `HEIGHT` = 0 when the frame is rejected or of another type. -/
theorem undecodedParseShowsNoReading : Obligations.UndecodedParseShowsNoReading := by
  unfold Obligations.UndecodedParseShowsNoReading
  intro s t h hheight
  obtain ⟨-, rfl⟩ | ⟨-, -, rfl⟩ | ⟨-, -, rfl⟩ := execParse_next h
  · exact ⟨readReg_outLen _, fun _ _ => rfl⟩
  · cases hheight
  · exact ⟨readReg_outLen _, fun _ _ => rfl⟩

/-! The CRC of two messages. -/

/-- CRC_INIT and a stream of CRC_BYTE leave the CRC of the stream (40_crc.md R134). -/
theorem crc_of_execAll_crcInit {bs : List Byte} {s t : State}
    (h : execAll (.crcInit :: bs.map .crcByte) s = .next t) : t.crc = crc16 bs := by
  obtain ⟨⟨u, hu, hcrc⟩, -⟩ := streamingAgreesWithBlock bs s
  obtain rfl := Host.Outcome.next.inj (h.symm.trans hu)
  exact hcrc

/-- Settles O10: a stream folds on from the CRC of the one before it, and CRC_INIT sets the initial value. -/
theorem crcContinuationHazard : Obligations.CrcContinuationHazard := by
  unfold Obligations.CrcContinuationHazard
  refine ⟨fun xs ys s t h => ⟨?_, (streamingAgreesWithBlock ys t).1⟩, fun c s hfits => ?_,
    fun i c s t hi h => ?_⟩
  · obtain ⟨u, hu, hcrc⟩ := execAll_crcByte ys t
    refine ⟨u, hu, ?_⟩
    rw [hcrc, crc_of_execAll_crcInit h, crc16, crc16, crcFold_append]
  · exact (exec_crcBuf_of_fits (s := { s with crc := c }) hfits).trans (exec_crcBuf_of_fits hfits).symm
  · have hother := exec_withCrcAndFrame (fun _ _ => rfl) c hi h
    have hkept : withCrcAndFrame c s.frameBuf t = { t with crc := c } := by
      rw [← (exec_keepsCrcAndFrame hi h).2]; rfl
    rw [← hkept]; exact hother

/-! The end of every accepted command. -/

theorem core_run_succ_of_step {s t : State} (h : step s = .next t) (k : Nat) :
    core.run (k + 1) s = core.run k t := by
  have hstep : core.step s = .next t := h
  simp only [Host.Core.run, hstep]

/-- A scheduled turn ends the command in flight, or leaves it there with one turn fewer. -/
theorem step_ends_or_takes_turn {s t : State} {w : Word32} {turn : Turn} {rest : List Turn} (hs : s.Inv)
    (hw : s.inflight = some w) (hturns : s.turns = turn :: rest) (h : step s = .next t) :
    t.inflight = none ∨ (t.inflight = some w ∧ t.turns = rest) := by
  obtain ht | ht := oneCommandAtATime s t w hs hw h
  · have hbusy : s.status.busy = true := by rw [hs.busy_eq_inflight, hw]; rfl
    obtain ⟨_, _, rfl⟩ := takeTurn_in_flight (s := { s with turns := rest }) hbusy hw
      ((step_of_turns_cons hturns).symm.trans h) ht
    exact .inr ⟨ht, rfl⟩
  · exact .inl ht

/-- Settles O52, by induction on the scheduled turns: each ends the command or is used up, and with none left
the core moves by default. -/
theorem everyCommandEnds : Obligations.EveryCommandEnds := by
  unfold Obligations.EveryCommandEnds
  intro s w hs hw
  induction hturns : s.turns generalizing s with
  | nil =>
    obtain ⟨t, ht, hended, -⟩ := completionOfCommands w s hw (.inl hturns)
    exact ⟨1, t, Nat.le_refl 1, core_run_succ_of_step ht 0, hended⟩
  | cons turn rest ih =>
    obtain ⟨u, hu⟩ := everyStepAnswersNext s
    obtain hended | ⟨hkept, hrest⟩ := step_ends_or_takes_turn hs hw hturns hu
    · exact ⟨1, u, Nat.le_add_left 1 _, core_run_succ_of_step hu 0, hended⟩
    · obtain ⟨k, t, hk, hrun, hended⟩ := ih u (inv_step hs hu) hkept hrest
      exact ⟨k + 1, t, Nat.succ_le_succ hk, (core_run_succ_of_step hu k).trans hrun, hended⟩

end Sys2Proof.Machine
end
